-- ==== Sys2Proof/Word.lean ====
section
/-! DEFINITION. Bytes, byte strings, operation words and binary64 patterns
(00_scope.md R13, R14, R16; 30_encoding.md R49). -/

namespace Sys2Proof

/-- An octet (00_scope.md R13). -/
abbrev Byte := BitVec 8

/-- A byte string in wire order, index 0 first (00_scope.md R14). -/
abbrev Bytes := List Byte

/-- The 32-bit operation word `opw` (30_encoding.md R48). -/
abbrev OpWord := BitVec 32

/-- The 64-bit pattern of an IEEE 754 binary64 value (00_scope.md R16; PRESUMED, log 13). -/
abbrev F64 := BitVec 64

end Sys2Proof
end

