-- ==== Sys2Proof/Syntax.lean ====
section
/-! DEFINITION. The sixteen operations with their fields (30_encoding.md R50 to R56). -/

namespace Sys2Proof

/-- The width n of a field, 1, 2 or 4 bytes (20_memory.md R40; WSEL of 30_encoding.md R52). -/
inductive FieldWidth where
  | w1 | w2 | w4
  deriving DecidableEq, Repr

/-- A Q-format descriptor (S, IB, FB); IB leaves the sign bit out
(30_encoding.md R51; 43_fixed_point.md R130, R131). -/
structure QFormat where
  signed : Bool
  ib : BitVec 8
  fb : BitVec 8
  deriving DecidableEq, Repr

/-- One constructor per row of spec/opcode_table.json. -/
inductive Instr where
  /-- FRM_ENC, 0x01, format N. -/
  | frmEnc
  /-- FRM_FEED, 0x02, format N. -/
  | frmFeed
  /-- FRM_RST, 0x03, format N. -/
  | frmRst
  /-- CK_APPEND, 0x10, format N. -/
  | ckAppend
  /-- CK_VERIFY, 0x11, format N. -/
  | ckVerify
  /-- CK_STRIP, 0x12, format N. -/
  | ckStrip
  /-- Q_ENC, 0x20, format Q. -/
  | qEnc (fmt : QFormat)
  /-- Q_DEC, 0x21, format Q. -/
  | qDec (fmt : QFormat)
  /-- LE_PUT, 0x22, format L with OFS = 0. -/
  | lePut (width : FieldWidth)
  /-- LE_GET, 0x23, format L. -/
  | leGet (width : FieldWidth) (ofs : BitVec 16)
  /-- FR_MKREQ, 0x30, format F with ACK = 0. -/
  | frMkreq (dest src : BitVec 7) (cmd : BitVec 5)
  /-- FR_MKREP, 0x31, format F. -/
  | frMkrep (dest src : BitVec 7) (cmd : BitVec 5) (ack : Bool)
  /-- FR_PARSE, 0x32, format N. -/
  | frParse
  /-- FR_VALID, 0x33, format N. -/
  | frValid
  /-- TM_DEC, 0x40, format T. -/
  | tmDec (sel : Byte)
  /-- SP_PROJ, 0x41, format T. -/
  | spProj (sel : Byte)
  deriving DecidableEq, Repr

end Sys2Proof
end

