-- ==== Sys2Proof/Decode.lean ====
section
/-! DEFINITION. The decoder of operation words, total over all 2^32 words (30_encoding.md R49 to
R58), and the encoder written from the same field tables. -/

namespace Sys2Proof

/-- `known(cmd)`: the eight assigned command codes PING, PEEK, POKE, APP-TM, APP-CMD, CLEAR-FAULT,
CONFIG-PROT, TRIP-LCL (30_encoding.md R60; 42_frame_model.md R116). -/
def knownCommand (cmd : BitVec 5) : Bool :=
  [0#5, 2#5, 3#5, 7#5, 8#5, 9#5, 10#5, 11#5].contains cmd

/-- Why a word is illegal: the clauses (a) to (f) of 30_encoding.md R57. Every reason has the one
effect E_ILLEGAL_OP(0); the names are the model's own (log 20). -/
inductive Illegal where
  | unassignedOp
  | reservedBits
  | wsel11
  | lePutOfs
  | mkreqAck
  | unassignedCmd
  deriving DecidableEq, Repr

/-- `OP = opw[31:24]` (R49). -/
def opField (w : OpWord) : BitVec 8 := w.extractLsb' 24 8

/-- Format N: opw[23:0] must be 0 (R50). -/
def decodeN (w : OpWord) (i : Instr) : Except Illegal Instr :=
  if w.extractLsb' 0 24 = 0#24 then .ok i else .error .reservedBits

/-- Format Q: S = opw[16], IB = opw[15:8], FB = opw[7:0]; opw[23:17] must be 0 (R51). -/
def decodeQ (w : OpWord) (f : QFormat → Instr) : Except Illegal Instr :=
  if w.extractLsb' 17 7 = 0#7 then
    .ok (f ⟨w.extractLsb' 16 1 = 1#1, w.extractLsb' 8 8, w.extractLsb' 0 8⟩)
  else .error .reservedBits

/-- WSEL: 00, 01, 10 give n = 1, 2, 4; 11 is illegal (R52). -/
def widthOfSel (sel : BitVec 2) : Option FieldWidth :=
  if sel = 0b00#2 then some .w1
  else if sel = 0b01#2 then some .w2
  else if sel = 0b10#2 then some .w4
  else none

/-- Format L: WSEL = opw[23:22], OFS = opw[15:0]; opw[21:16] must be 0 (R52). -/
def decodeL (w : OpWord) (f : FieldWidth → BitVec 16 → Except Illegal Instr) :
    Except Illegal Instr :=
  if w.extractLsb' 16 6 = 0#6 then
    match widthOfSel (w.extractLsb' 22 2) with
    | some n => f n (w.extractLsb' 0 16)
    | none => .error .wsel11
  else .error .reservedBits

/-- Format F: DEST = opw[6:0], SRC = opw[13:7], CMD = opw[18:14], ACK = opw[19]; opw[23:20] must
be 0 and CMD one of the assigned codes (R53). -/
def decodeF (w : OpWord) (f : BitVec 7 → BitVec 7 → BitVec 5 → Bool → Except Illegal Instr) :
    Except Illegal Instr :=
  if w.extractLsb' 20 4 = 0#4 then
    if knownCommand (w.extractLsb' 14 5) then
      f (w.extractLsb' 0 7) (w.extractLsb' 7 7) (w.extractLsb' 14 5) (w.extractLsb' 19 1 = 1#1)
    else .error .unassignedCmd
  else .error .reservedBits

/-- Format T: SEL = opw[7:0]; opw[23:8] must be 0 (R54). -/
def decodeT (w : OpWord) (f : Byte → Instr) : Except Illegal Instr :=
  if w.extractLsb' 8 16 = 0#16 then .ok (f (w.extractLsb' 0 8)) else .error .reservedBits

/-- LE_PUT uses no offset, so OFS must be 0 (R52, R57 (d)). -/
def lePutOf (n : FieldWidth) (ofs : BitVec 16) : Except Illegal Instr :=
  if ofs = 0#16 then .ok (.lePut n) else .error .lePutOfs

/-- FR_MKREQ requires ACK = 0 (R53, R57 (e)). -/
def frMkreqOf (dest src : BitVec 7) (cmd : BitVec 5) (ack : Bool) : Except Illegal Instr :=
  if ack then .error .mkreqAck else .ok (.frMkreq dest src cmd)

/-- The opcode map of 30_encoding.md R55; every other OP is unassigned. -/
def decode (w : OpWord) : Except Illegal Instr :=
  if opField w = 0x01#8 then decodeN w .frmEnc
  else if opField w = 0x02#8 then decodeN w .frmFeed
  else if opField w = 0x03#8 then decodeN w .frmRst
  else if opField w = 0x10#8 then decodeN w .ckAppend
  else if opField w = 0x11#8 then decodeN w .ckVerify
  else if opField w = 0x12#8 then decodeN w .ckStrip
  else if opField w = 0x20#8 then decodeQ w .qEnc
  else if opField w = 0x21#8 then decodeQ w .qDec
  else if opField w = 0x22#8 then decodeL w lePutOf
  else if opField w = 0x23#8 then decodeL w (fun n ofs => .ok (.leGet n ofs))
  else if opField w = 0x30#8 then decodeF w frMkreqOf
  else if opField w = 0x31#8 then decodeF w (fun d s c a => .ok (.frMkrep d s c a))
  else if opField w = 0x32#8 then decodeN w .frParse
  else if opField w = 0x33#8 then decodeN w .frValid
  else if opField w = 0x40#8 then decodeT w .tmDec
  else if opField w = 0x41#8 then decodeT w .spProj
  else .error .unassignedOp

/-- The operation word of a table word: the number w of nbits bits, the bits above them 0. An
operation word is delivered whole by the host and never stored as bytes (20_memory.md R47; log 9). -/
def tableWord (nbits w : Nat) : OpWord := BitVec.ofNat 32 (w % 2 ^ nbits)

/-- The instruction the decoder reads from a table word. -/
def decodeTableWord (nbits w : Nat) : Option Instr :=
  match decode (tableWord nbits w) with
  | .ok i => some i
  | .error _ => none

/-! ### The encoder -/

/-- The WSEL field of a width (R52). -/
def selOfWidth (n : FieldWidth) : BitVec 2 :=
  match n with
  | .w1 => 0b00#2
  | .w2 => 0b01#2
  | .w4 => 0b10#2

/-- Format N (R50). -/
def encodeN (op : BitVec 8) : OpWord := op ++ 0#24

/-- Format Q (R51). -/
def encodeQ (op : BitVec 8) (fmt : QFormat) : OpWord :=
  op ++ 0#7 ++ BitVec.ofBool fmt.signed ++ fmt.ib ++ fmt.fb

/-- Format L (R52). -/
def encodeL (op : BitVec 8) (n : FieldWidth) (ofs : BitVec 16) : OpWord :=
  op ++ selOfWidth n ++ 0#6 ++ ofs

/-- Format F (R53). -/
def encodeF (op : BitVec 8) (dest src : BitVec 7) (cmd : BitVec 5) (ack : Bool) : OpWord :=
  op ++ 0#4 ++ BitVec.ofBool ack ++ cmd ++ src ++ dest

/-- Format T (R54). -/
def encodeT (op : BitVec 8) (sel : Byte) : OpWord := op ++ 0#16 ++ sel

/-- The word of an instruction (30_encoding.md R50 to R55). -/
def encode (i : Instr) : OpWord :=
  match i with
  | .frmEnc => encodeN 0x01#8
  | .frmFeed => encodeN 0x02#8
  | .frmRst => encodeN 0x03#8
  | .ckAppend => encodeN 0x10#8
  | .ckVerify => encodeN 0x11#8
  | .ckStrip => encodeN 0x12#8
  | .qEnc fmt => encodeQ 0x20#8 fmt
  | .qDec fmt => encodeQ 0x21#8 fmt
  | .lePut n => encodeL 0x22#8 n 0#16
  | .leGet n ofs => encodeL 0x23#8 n ofs
  | .frMkreq dest src cmd => encodeF 0x30#8 dest src cmd false
  | .frMkrep dest src cmd ack => encodeF 0x31#8 dest src cmd ack
  | .frParse => encodeN 0x32#8
  | .frValid => encodeN 0x33#8
  | .tmDec sel => encodeT 0x40#8 sel
  | .spProj sel => encodeT 0x41#8 sel

/-! ### The opcode table (30_encoding.md R58) -/

/-- The mnemonic of an instruction's row (30_encoding.md R55). -/
def mnemonicOf (i : Instr) : String :=
  match i with
  | .frmEnc => "FRM_ENC"
  | .frmFeed => "FRM_FEED"
  | .frmRst => "FRM_RST"
  | .ckAppend => "CK_APPEND"
  | .ckVerify => "CK_VERIFY"
  | .ckStrip => "CK_STRIP"
  | .qEnc _ => "Q_ENC"
  | .qDec _ => "Q_DEC"
  | .lePut _ => "LE_PUT"
  | .leGet _ _ => "LE_GET"
  | .frMkreq _ _ _ => "FR_MKREQ"
  | .frMkrep _ _ _ _ => "FR_MKREP"
  | .frParse => "FR_PARSE"
  | .frValid => "FR_VALID"
  | .tmDec _ => "TM_DEC"
  | .spProj _ => "SP_PROJ"

/-- A row of spec/opcode_table.json: a word w matches it exactly when `w &&& mask = pattern`. -/
structure OpcodeRow where
  mnemonic : String
  pattern : OpWord
  mask : OpWord
  deriving DecidableEq, Repr

/-- The sixteen rows of spec/opcode_table.json, in its order. -/
def opcodeTable : List OpcodeRow := [
  ⟨"FRM_ENC", 0x01000000#32, 0xFFFFFFFF#32⟩,
  ⟨"FRM_FEED", 0x02000000#32, 0xFFFFFFFF#32⟩,
  ⟨"FRM_RST", 0x03000000#32, 0xFFFFFFFF#32⟩,
  ⟨"CK_APPEND", 0x10000000#32, 0xFFFFFFFF#32⟩,
  ⟨"CK_VERIFY", 0x11000000#32, 0xFFFFFFFF#32⟩,
  ⟨"CK_STRIP", 0x12000000#32, 0xFFFFFFFF#32⟩,
  ⟨"Q_ENC", 0x20000000#32, 0xFFFE0000#32⟩,
  ⟨"Q_DEC", 0x21000000#32, 0xFFFE0000#32⟩,
  ⟨"LE_PUT", 0x22000000#32, 0xFF3FFFFF#32⟩,
  ⟨"LE_GET", 0x23000000#32, 0xFF3F0000#32⟩,
  ⟨"FR_MKREQ", 0x30000000#32, 0xFFF80000#32⟩,
  ⟨"FR_MKREP", 0x31000000#32, 0xFFF00000#32⟩,
  ⟨"FR_PARSE", 0x32000000#32, 0xFFFFFFFF#32⟩,
  ⟨"FR_VALID", 0x33000000#32, 0xFFFFFFFF#32⟩,
  ⟨"TM_DEC", 0x40000000#32, 0xFFFFFF00#32⟩,
  ⟨"SP_PROJ", 0x41000000#32, 0xFFFFFF00#32⟩]

/-- `(opw & r.mask) == r.match` (30_encoding.md R58). -/
def OpcodeRow.covers (r : OpcodeRow) (w : OpWord) : Bool := w &&& r.mask = r.pattern

/-! ### Pseudo-operations (30_encoding.md R59) -/

/-- `FR_MKACK ...` is `FR_MKREP ack=1, ...`. -/
def frMkack (dest src : BitVec 7) (cmd : BitVec 5) : Instr := .frMkrep dest src cmd true

/-- `FR_MKNACK ...` is `FR_MKREP ack=0, ...`. -/
def frMknack (dest src : BitVec 7) (cmd : BitVec 5) : Instr := .frMkrep dest src cmd false

/-- `SP_PROJ SPEED` is `SP_PROJ sel=0x02`. -/
def spProjSpeed : Instr := .spProj 0x02#8

end Sys2Proof
end

