-- ==== Sys2Proof/Config.lean ====
section
/-! DEFINITION. The configuration of the block: the named parameters of 00_scope.md R9 to R12
(10_state.md R27), as plain data, and the one value the spec leaves free as a function. -/

namespace Sys2Proof

/-- `P_CK_ORDER` (00_scope.md R10). -/
inductive CkOrder where
  | le | be
  deriving DecidableEq, Repr

/-- `P_CKSUM16`: an uninterpreted total function from byte strings to 16-bit values
(00_scope.md R10; 41_checksum.md R107). It has no body: nothing evaluates it (log 2). -/
opaque cksum16 : Bytes → BitVec 16

/-- Which checksum function the configuration names. `param` is the spec's open parameter; `crc16`
is a non-reflected 16-bit CRC, there only so that the spec's example profile
(93_implementation_defined.md G2) is a configuration whose bytes can be computed (log 2). -/
inductive Checksum where
  | param
  | crc16 (poly init xorOut : BitVec 16)
  deriving DecidableEq, Repr

/-- The kind of a telemetry field: a descriptor, or a raw setpoint (44_telemetry.md R142). -/
inductive FieldKind where
  | q (fmt : QFormat)
  | setpoint
  deriving DecidableEq, Repr

/-- A field descriptor (fname, o, n, kind) (44_telemetry.md R142). -/
structure FieldDesc where
  name : String
  ofs : Nat
  width : FieldWidth
  kind : FieldKind
  deriving DecidableEq, Repr

/-- `P_TM_ID` and `P_TM_LAYOUT` of a named block; its length is fixed (44_telemetry.md R142). -/
structure TmBlock where
  id : Byte
  fields : List FieldDesc
  deriving DecidableEq, Repr

/-- A block of `P_TM_EXTRA`: it brings its own identifier, length and layout (00_scope.md R11). -/
structure ExtraBlock where
  name : String
  id : Byte
  len : Nat
  fields : List FieldDesc
  deriving DecidableEq, Repr

/-- The blocks: five named by the source, and those of `P_TM_EXTRA` (44_telemetry.md R149). -/
inductive BlockName where
  | standard | temp | volt | curr | diagGeneral
  | extra (name : String)
  deriving DecidableEq, Repr

/-- A telemetry block descriptor (name, id, L, fields) (44_telemetry.md R142). -/
structure BlockDesc where
  name : BlockName
  id : Byte
  len : Nat
  fields : List FieldDesc
  deriving DecidableEq, Repr

/-- The configuration of 10_state.md R27. `bufCap = none` is P_BUF_CAP = ∞ (00_scope.md R12). -/
structure Config where
  flag : Byte
  esc : Byte
  escFlag : Byte
  escEsc : Byte
  cksum : Checksum
  ckOrder : CkOrder
  bufCap : Option Nat
  tmStandard : TmBlock
  tmTemp : TmBlock
  tmVolt : TmBlock
  tmCurr : TmBlock
  tmDiag : TmBlock
  tmExtra : List ExtraBlock
  modeCurrent : Byte
  modeTorque : Byte
  modePwm : Byte
  deriving DecidableEq, Repr

/-- TEMP of the test profile EX-TM (95_test_vectors.md section 0). -/
def exTmTemp : TmBlock where
  id := 0x02#8
  fields := [⟨"t0", 0, .w2, .q ⟨true, 13, 2⟩⟩, ⟨"t1", 2, .w2, .q ⟨true, 13, 2⟩⟩,
    ⟨"t2", 4, .w4, .q ⟨true, 19, 12⟩⟩]

/-- STANDARD of the test profile EX-TM (95_test_vectors.md section 0). -/
def exTmStandard : TmBlock where
  id := 0x01#8
  fields := [⟨"mode", 0, .w1, .q ⟨false, 8, 0⟩⟩, ⟨"setpoint", 1, .w4, .setpoint⟩,
    ⟨"speed", 5, .w4, .q ⟨true, 23, 8⟩⟩, ⟨"current", 9, .w4, .q ⟨true, 19, 12⟩⟩,
    ⟨"u16", 13, .w4, .q ⟨false, 16, 16⟩⟩, ⟨"u24", 17, .w4, .q ⟨false, 24, 8⟩⟩,
    ⟨"u8", 21, .w2, .q ⟨false, 8, 8⟩⟩, ⟨"q2", 23, .w2, .q ⟨true, 13, 2⟩⟩]

/-- The configuration State.reset holds: the octets, identifiers, layouts and mode codes of the
spec's example profiles, with the checksum left open. DESIGN CHOICE (log 1): the configuration has
no reset value (10_state.md R29), and the example profiles are not the device's. -/
def Config.initial : Config where
  flag := 0x7E#8
  esc := 0x7D#8
  escFlag := 0x5E#8
  escEsc := 0x5D#8
  cksum := .param
  ckOrder := .le
  bufCap := none
  tmStandard := exTmStandard
  tmTemp := exTmTemp
  tmVolt := ⟨0x03#8, []⟩
  tmCurr := ⟨0x04#8, []⟩
  tmDiag := ⟨0x05#8, []⟩
  tmExtra := []
  modeCurrent := 0x01#8
  modeTorque := 0x03#8
  modePwm := 0x04#8

/-- The profile EX-HDLC with EX-TM (95_test_vectors.md section 0): CRC-16/CCITT-FALSE, low byte
first. A test profile, not the device's configuration. -/
def Config.exHdlc : Config := { Config.initial with cksum := .crc16 0x1021#16 0xFFFF#16 0#16 }

end Sys2Proof
end

