-- ==== Sys2Proof/Machine/State.lean ====
section
/-! DEFINITION. The state of the block, its result records, and the reasons a step can stop
(10_state.md R18 to R29; 30_encoding.md R48; 60_exceptions.md R150, R159, R160). -/

namespace Sys2Proof.Machine

/-- The one model fault (60_exceptions.md R159), the value of the mark FAULT. -/
inductive Fault where
  /-- F_OVERFLOW. FRM_FEED sets the mark when a byte would make BUF longer than a finite P_BUF_CAP
  (40_framer.md R103); `step` then answers this fault at the marked state, which has no further
  step (60_exceptions.md R159). Safe: the machine stops. -/
  | overflow
  deriving DecidableEq, Repr

/-- Why a step has no meaning. -/
inductive Refusal where
  /-- An instruction with no meaning yet, by its mnemonic. Raised by no arm of this model. Safe. -/
  | notModelled (mnemonic : String)
  /-- Raised by `step` at a state whose configuration is not well formed: a model has no run for it
  (10_state.md R28; 60_exceptions.md R160). Safe. -/
  | illFormedConfig
  deriving DecidableEq, Repr

/-- The scalar operand X: a binary64 value (X.f64) or a 32-bit unsigned integer (X.u32), as the
operation's row of 30_encoding.md R56 reads it. Both readings are supplied; an operation reads the
one its row names and ignores the other (log 4). -/
structure Scalar where
  f64 : F64
  u32 : BitVec 32
  deriving DecidableEq, Repr

/-- The operands A, B and X of the current operation (30_encoding.md R48; log 3). -/
structure Operands where
  a : Bytes
  b : Bytes
  x : Scalar
  deriving DecidableEq, Repr

/-- One operation issued by the host: an operation word with its operands (30_encoding.md R48;
70_reset_and_hazards.md R164). -/
structure Request where
  opw : OpWord
  args : Operands
  deriving DecidableEq, Repr

/-- The status kinds of 60_exceptions.md R150. -/
inductive Status where
  | ok | eFraming | eNack | eMismatch | eLength | eUnknownBlock | eIllegalOp | eFormat | eNan
  | eOperand | eShort | eMode
  deriving DecidableEq, Repr

/-- The kind of a frame (30_encoding.md R62). -/
inductive Kind where
  | request | ack | nack | invalid
  deriving DecidableEq, Repr

/-- The record REC of FR_PARSE (42_frame_model.md R123). -/
structure FrameRec where
  dest : Byte
  src : Byte
  ctrl : Byte
  req : Bool
  rsv : Bool
  ack : Bool
  cmd : BitVec 5
  kind : Kind
  known : Bool
  deriving DecidableEq, Repr

/-- One field of a TM_DEC record: its raw value, and its decoded value (none for a SETPOINT)
(44_telemetry.md R143). -/
structure FieldVal where
  name : String
  raw : Nat
  value : Option Rat
  deriving DecidableEq, Repr

/-- The result field REC (10_state.md R25). -/
inductive Record where
  | empty
  | frame (f : FrameRec)
  | block (b : BlockName) (fields : List FieldVal)
  deriving DecidableEq, Repr

/-- The result field Y: an integer, an exact rational or a boolean (10_state.md R25). -/
inductive YVal where
  | int (n : Int)
  | rat (q : Rat)
  | bool (b : Bool)
  deriving DecidableEq, Repr

/-- The result record of one operation (10_state.md R25). A field the operation does not name is
`[]`, 0, false or the empty list (log 14). -/
structure Result where
  status : Byte := 0x00#8
  detail : Byte := 0x00#8
  r : Bytes := []
  y : YVal := .int 0
  range : Bool := false
  frames : List Bytes := []
  record : Record := .empty
  deriving DecidableEq, Repr

/-- The state of the block. `buf`, `ep` and `fault` are the architectural state (10_state.md R18);
`cfg` is the configuration, which no operation writes (R27; log 1); `port`, `pending` and
`results` are the host interface as plain data (log 3, 5, 7). -/
structure State where
  buf : Bytes
  ep : Bool
  fault : Option Fault
  cfg : Config
  port : Operands
  pending : List Request
  results : List Result
  deriving DecidableEq, Repr

/-- What one FRM_FEED works on: BUF, EP, FAULT, and the frames emitted so far (40_framer.md R102,
R104). -/
structure Decoder where
  buf : Bytes
  ep : Bool
  fault : Option Fault
  frames : List Bytes
  deriving DecidableEq, Repr

/-- Operand ports before the first operation (DESIGN CHOICE, log 3). -/
def Operands.idle : Operands := ⟨[], [], ⟨0#64, 0#32⟩⟩

/-- Power-on of an instance with configuration c: BUF = [], EP = 0, FAULT clear, no operation
issued (10_state.md R29; 70_reset_and_hazards.md R161). -/
def State.powerOn (c : Config) : State where
  buf := []
  ep := false
  fault := none
  cfg := c
  port := Operands.idle
  pending := []
  results := []

/-- The state after reset: power-on with the configuration the log names (log 1). -/
def State.reset : State := State.powerOn Config.initial

end Sys2Proof.Machine
end

