-- ==== Sys2Proof/Machine/Flags.lean ====
section
/-! DEFINITION. Status codes, the bits of the control byte, the kind of a frame, and the RANGE flag
(60_exceptions.md R150; 30_encoding.md R61, R62; 10_state.md R26). -/

namespace Sys2Proof.Machine

/-- The 8-bit code of a status (60_exceptions.md R150). -/
def Status.code (e : Status) : Byte :=
  match e with
  | .ok => 0x00#8
  | .eFraming => 0x01#8
  | .eNack => 0x02#8
  | .eMismatch => 0x03#8
  | .eLength => 0x04#8
  | .eUnknownBlock => 0x05#8
  | .eIllegalOp => 0x06#8
  | .eFormat => 0x07#8
  | .eNan => 0x08#8
  | .eOperand => 0x09#8
  | .eShort => 0x0A#8
  | .eMode => 0x0B#8

/-- `REQ = c[7]` (30_encoding.md R61). -/
def reqBit (c : Byte) : Bool := c.getLsbD 7

/-- `RSV = c[6]` (30_encoding.md R61). -/
def rsvBit (c : Byte) : Bool := c.getLsbD 6

/-- `ACK = c[5]` (30_encoding.md R61). -/
def ackBit (c : Byte) : Bool := c.getLsbD 5

/-- `CMD = c[4:0]` (30_encoding.md R61). -/
def cmdBits (c : Byte) : BitVec 5 := c.extractLsb' 0 5

/-- The kind of a frame from (REQ, ACK) (30_encoding.md R62). -/
def kindOf (req ack : Bool) : Kind :=
  match req, ack with
  | true, false => .request
  | false, true => .ack
  | false, false => .nack
  | true, true => .invalid

/-- KIND where a numeric value is needed (42_frame_model.md R123). -/
def Kind.code (k : Kind) : Nat :=
  match k with
  | .request => 0
  | .ack => 1
  | .nack => 2
  | .invalid => 3

/-- The control byte of a request: REQ = 1, RSV = 0, ACK = 0 (42_frame_model.md R119). -/
def requestControl (cmd : BitVec 5) : Byte := 0x80#8 ||| cmd.setWidth 8

/-- The control byte of a reply: REQ = 0, RSV = 0 (42_frame_model.md R120). -/
def replyControl (cmd : BitVec 5) (ack : Bool) : Byte :=
  ((BitVec.ofBool ack).setWidth 8 <<< 5) ||| cmd.setWidth 8

end Sys2Proof.Machine
end

