-- ==== Sys2Proof/Machine/Operands.lean ====
section
/-! DEFINITION. Operand forms: byte-string slices and little-endian fields, the Q-format descriptor
with its exact range, the reading of a binary64 pattern, the named formats, and the telemetry block
descriptors of a configuration (00_scope.md R14, R16; 20_memory.md R40; 43_fixed_point.md R130 to
R135; 44_telemetry.md R142, R144). -/

namespace Sys2Proof

/-- n, the number of bytes of a field (30_encoding.md R52). -/
def FieldWidth.bytes (n : FieldWidth) : Nat :=
  match n with
  | .w1 => 1
  | .w2 => 2
  | .w4 => 4

namespace Machine

/-! ### Byte strings -/

/-- `s[i..j)` (00_scope.md R14). -/
def slice (s : Bytes) (i j : Nat) : Bytes := (s.drop i).take (j - i)

/-- `le_val(s)` (00_scope.md R14). -/
def leVal (s : Bytes) : Nat :=
  match s with
  | [] => 0
  | b :: bs => b.toNat + 256 * leVal bs

/-- `le_bytes_N(v)` (00_scope.md R14). -/
def leBytes (n v : Nat) : Bytes :=
  match n with
  | 0 => []
  | n + 1 => BitVec.ofNat 8 v :: leBytes n (v / 256)

/-- The field read of 20_memory.md R40: the n bytes at offset o, little-endian; none where the
field would extend past the end of the string. -/
def readField (s : Bytes) (o : Nat) (n : FieldWidth) : Option Nat :=
  if o + n.bytes ≤ s.length then some (leVal (slice s o (o + n.bytes))) else none

/-! ### Q-format descriptors -/

/-- `2^n` as a rational. -/
def pow2 (n : Nat) : Rat := ((2 ^ n : Nat) : Rat)

/-- The significant width `t = IB + FB + S` (43_fixed_point.md R130). -/
def sigWidth (f : QFormat) : Nat := f.ib.toNat + f.fb.toNat + f.signed.toNat

/-- A descriptor with t > 32 has no width (43_fixed_point.md R130). -/
def hasWidth (f : QFormat) : Bool := sigWidth f ≤ 32

/-- The byte width W: the least of 8, 16 and 32 that is at least t (43_fixed_point.md R130). Read
only under `hasWidth`. -/
def qWidth (f : QFormat) : Nat :=
  if sigWidth f ≤ 8 then 8 else if sigWidth f ≤ 16 then 16 else 32

/-- `lo`, the least representable value (43_fixed_point.md R132). -/
def qLo (f : QFormat) : Rat := if f.signed then -pow2 f.ib.toNat else 0

/-- `hi`, the greatest representable value (43_fixed_point.md R132). -/
def qHi (f : QFormat) : Rat := pow2 f.ib.toNat - 1 / pow2 f.fb.toNat

/-- `trunc(q)`, the integer part rounded toward zero (00_scope.md R16). -/
def trunc (q : Rat) : Int := q.num.tdiv q.den

/-- The W-bit two's-complement pattern of r (43_fixed_point.md R134). -/
def toPattern (w : Nat) (r : Int) : Int := if r < 0 then r + 2 ^ w else r

/-- The integer a W-bit raw pattern stands for: `raw - 2^W` when the format is signed and bit W-1
is set (43_fixed_point.md R135). -/
def fromPattern (f : QFormat) (raw : Nat) : Int :=
  if f.signed && raw.testBit (qWidth f - 1) then (raw : Int) - 2 ^ qWidth f else raw

/-- `value(raw, S, IB, FB)`, the Y of Q_DEC (43_fixed_point.md R135; 44_telemetry.md R143). -/
def qValue (f : QFormat) (raw : Nat) : Rat := (fromPattern f raw : Rat) / pow2 f.fb.toNat

/-- What a binary64 value is: NaN, an infinity, or the exact rational it denotes
(00_scope.md R16). -/
inductive Real64 where
  | nan
  | inf (neg : Bool)
  | finite (q : Rat)
  deriving DecidableEq, Repr

/-- The magnitude of a finite binary64 pattern with biased exponent e and fraction m: subnormal
for e = 0 (PRESUMED, IEEE 754; log 13). -/
def magnitude64 (e m : Nat) : Rat :=
  if e = 0 then (m : Rat) / pow2 1074
  else if 1075 ≤ e then ((2 ^ 52 + m : Nat) : Rat) * pow2 (e - 1075)
  else ((2 ^ 52 + m : Nat) : Rat) / pow2 (1075 - e)

/-- The value of a binary64 pattern: sign bit 63, exponent bits 62..52, fraction bits 51..0
(00_scope.md R16; PRESUMED, IEEE 754; log 13). Both zeros denote 0. -/
def real64 (x : F64) : Real64 :=
  let neg := x.getLsbD 63
  let e := (x.extractLsb' 52 11).toNat
  let m := (x.extractLsb' 0 52).toNat
  if e = 2047 then (if m = 0 then .inf neg else .nan)
  else .finite (if neg then -magnitude64 e m else magnitude64 e m)

/-- The clamped value y of Q_ENC; none for NaN (43_fixed_point.md R134). -/
def saturate (f : QFormat) (v : Real64) : Option Rat :=
  match v with
  | .nan => none
  | .inf neg => some (if neg then qLo f else qHi f)
  | .finite x => some (min (max x (qLo f)) (qHi f))

/-- RANGE: 1 exactly when Q_ENC clamps its input (10_state.md R26; 43_fixed_point.md R134). -/
def rangeFlag (f : QFormat) (v : Real64) : Bool :=
  match v with
  | .nan => false
  | .inf _ => true
  | .finite x => decide (x < qLo f) || decide (qHi f < x)

/-- The named formats (43_fixed_point.md R133). -/
def uq8x8 : QFormat := ⟨false, 8, 8⟩
/-- UQ16.16. -/
def uq16x16 : QFormat := ⟨false, 16, 16⟩
/-- UQ24.8. -/
def uq24x8 : QFormat := ⟨false, 24, 8⟩
/-- Q14.18, current and speed setpoints. -/
def q14x18 : QFormat := ⟨true, 13, 18⟩
/-- Q10.22, torque setpoint. -/
def q10x22 : QFormat := ⟨true, 9, 22⟩
/-- Q24.8. -/
def q24x8 : QFormat := ⟨true, 23, 8⟩
/-- Q20.12. -/
def q20x12 : QFormat := ⟨true, 19, 12⟩
/-- Q14.2. -/
def q14x2 : QFormat := ⟨true, 13, 2⟩
/-- I32, the plain signed PWM setpoint. -/
def i32 : QFormat := ⟨true, 31, 0⟩

/-! ### Telemetry descriptors -/

/-- The blocks of a configuration, with the fixed lengths of the five named ones
(44_telemetry.md R142, R149). -/
def tmBlocks (c : Config) : List BlockDesc :=
  [⟨.standard, c.tmStandard.id, 25, c.tmStandard.fields⟩,
    ⟨.temp, c.tmTemp.id, 8, c.tmTemp.fields⟩,
    ⟨.volt, c.tmVolt.id, 24, c.tmVolt.fields⟩,
    ⟨.curr, c.tmCurr.id, 24, c.tmCurr.fields⟩,
    ⟨.diagGeneral, c.tmDiag.id, 20, c.tmDiag.fields⟩] ++
  c.tmExtra.map (fun e => ⟨.extra e.name, e.id, e.len, e.fields⟩)

/-- The block an identifier names (44_telemetry.md R143; log 16). -/
def findBlock (c : Config) (sel : Byte) : Option BlockDesc :=
  (tmBlocks c).find? (fun b => b.id == sel)

/-- The setpoint format of a control mode: SPEED (0x02) and CURRENT Q14.18, TORQUE Q10.22, PWM
signed 32-bit, none for any other code (44_telemetry.md R144, R145). -/
def setpointFormat (c : Config) (sel : Byte) : Option QFormat :=
  if sel = 0x02#8 ∨ sel = c.modeCurrent then some q14x18
  else if sel = c.modeTorque then some q10x22
  else if sel = c.modePwm then some i32
  else none

end Machine

end Sys2Proof
end

