-- ==== Sys2Proof/Machine/Ops.lean ====
section
/-! DEFINITION. The named operations of the machine: returning a result, raising an error status
(the one way an operation fails, 60_exceptions.md R152), issuing an operation, the framer's byte
step, the checksum, the frame model's serialization and parse, and the well-formedness of a
configuration. -/

namespace Sys2Proof.Machine

/-! ### Results and errors -/

/-- Return one result record (10_state.md R25). Nothing else changes. -/
def State.ret (s : State) (r : Result) : State := { s with results := s.results ++ [r] }

/-- The record of `raise E_X(d)`: the status, its detail, and nothing else (00_scope.md R15;
60_exceptions.md R151, R152). -/
def errorResult (e : Status) (detail : Byte) : Result := { status := e.code, detail := detail }

/-- `raise E_X(d)`: the operation ends with status E_X and detail d and writes no state
(00_scope.md R15). -/
def State.raise (s : State) (e : Status) (detail : Byte) : State := s.ret (errorResult e detail)

/-- The host's next operation is taken up: its operands stand at the ports and it leaves the queue
(30_encoding.md R48; log 3, 5). -/
def State.issue (s : State) (q : Request) (rest : List Request) : State :=
  { s with port := q.args, pending := rest }

/-! ### The framer -/

/-- The escape map `esc` (40_framer.md R100). -/
def escByte (c : Config) (b : Byte) : Bytes :=
  if b = c.flag then [c.esc, c.escFlag]
  else if b = c.esc then [c.esc, c.escEsc]
  else [b]

/-- `esc*`, the concatenation of `esc` over the bytes of d (40_framer.md R100). -/
def escAll (c : Config) (d : Bytes) : Bytes := d.flatMap (escByte c)

/-- The wire string of a payload: a delimiter, the escaped payload, a delimiter
(40_framer.md R101). -/
def frameEncode (c : Config) (d : Bytes) : Bytes := [c.flag] ++ escAll c d ++ [c.flag]

/-- A buffer of n bytes fits P_BUF_CAP (40_framer.md R103). -/
def fitsCap (c : Config) (n : Nat) : Bool :=
  match c.bufCap with
  | none => true
  | some k => n ≤ k

/-- `app(str)`: append to BUF, or set FAULT without appending when a finite P_BUF_CAP would be
exceeded (40_framer.md R103). -/
def app (c : Config) (d : Decoder) (str : Bytes) : Decoder :=
  if fitsCap c (d.buf.length + str.length) then { d with buf := d.buf ++ str }
  else { d with fault := some .overflow }

/-- The decoder's byte step, its branches in the order of 40_framer.md R102. After an overflow the
run has ended and no further byte is consumed (R103). -/
def byteStep (c : Config) (d : Decoder) (b : Byte) : Decoder :=
  if d.fault.isSome then d
  else if d.ep then
    if b = c.escFlag then app c { d with ep := false } [c.flag]
    else if b = c.escEsc then app c { d with ep := false } [c.esc]
    else app c { d with ep := false } [c.esc, b]
  else if b = c.flag then
    if 0 < d.buf.length then { d with buf := [], frames := d.frames ++ [d.buf] } else d
  else if b = c.esc then { d with ep := true }
  else app c d [b]

/-- The bytes of a chunk in index order (20_memory.md R45; 40_framer.md R104). -/
def feed (c : Config) (d : Decoder) (chunk : Bytes) : Decoder := chunk.foldl (byteStep c) d

/-- The decoder at the start of an FRM_FEED: no frame emitted yet (40_framer.md R104). -/
def State.decoder (s : State) : Decoder := ⟨s.buf, s.ep, s.fault, []⟩

/-- Write BUF, EP and FAULT back at the end of an FRM_FEED (20_memory.md R41). -/
def State.withDecoder (s : State) (d : Decoder) : State :=
  { s with buf := d.buf, ep := d.ep, fault := d.fault }

/-! ### The checksum -/

/-- One bit of a non-reflected CRC: shift left, and subtract the polynomial where a 1 falls out. -/
def crcShift (poly reg : BitVec 16) : BitVec 16 :=
  if reg.msb then (reg <<< 1) ^^^ poly else reg <<< 1

/-- One byte of a non-reflected CRC, most significant bit first. -/
def crcByte (poly reg : BitVec 16) (b : Byte) : BitVec 16 :=
  (crcShift poly)^[8] (reg ^^^ (b.setWidth 16 <<< 8))

/-- The function a checksum names (41_checksum.md R107; log 2). -/
def checksumOf (k : Checksum) (d : Bytes) : BitVec 16 :=
  match k with
  | .param => cksum16 d
  | .crc16 poly init xorOut => d.foldl (crcByte poly) init ^^^ xorOut

/-- `T(d)`, the 2-byte trailer, in the order P_CK_ORDER (41_checksum.md R108). -/
def trailer (c : Config) (d : Bytes) : Bytes :=
  let k := checksumOf c.cksum d
  match c.ckOrder with
  | .le => [k.extractLsb' 0 8, k.extractLsb' 8 8]
  | .be => [k.extractLsb' 8 8, k.extractLsb' 0 8]

/-- Whether the last 2 bytes are the trailer of the bytes before them; false for a string shorter
than 2 (41_checksum.md R110). -/
def verifies (c : Config) (s : Bytes) : Bool :=
  if s.length < 2 then false
  else slice s (s.length - 2) s.length == trailer c (slice s 0 (s.length - 2))

/-! ### Frames -/

/-- A frame {dest, src, control, payload} (42_frame_model.md R115). -/
structure Frame where
  dest : Byte
  src : Byte
  control : Byte
  payload : Bytes
  deriving DecidableEq, Repr

/-- `ser(f)` (42_frame_model.md R117). -/
def ser (f : Frame) : Bytes := [f.dest, f.src, f.control] ++ f.payload

/-- `parse(s)`: it fails only on fewer than 3 bytes (42_frame_model.md R121). -/
def parse (s : Bytes) : Option Frame :=
  match s with
  | d :: r :: k :: p => some ⟨d, r, k, p⟩
  | _ => none

/-- The unpacked control byte and header of a frame (42_frame_model.md R122, R123). -/
def frameRec (f : Frame) : FrameRec where
  dest := f.dest
  src := f.src
  ctrl := f.control
  req := reqBit f.control
  rsv := rsvBit f.control
  ack := ackBit f.control
  cmd := cmdBits f.control
  kind := kindOf (reqBit f.control) (ackBit f.control)
  known := knownCommand (cmdBits f.control)

/-- Build and serialize a frame with 7-bit addresses; a CMD outside the assigned codes makes the
word illegal (30_encoding.md R57 (f); 42_frame_model.md R119, R120; log 15). -/
def State.build (s : State) (dest src : BitVec 7) (cmd : BitVec 5) (control : Byte) : State :=
  if knownCommand cmd then
    s.ret { r := ser ⟨dest.setWidth 8, src.setWidth 8, control, s.port.a⟩ }
  else s.raise .eIllegalOp 0

/-! ### Telemetry -/

/-- The decoded value of a field: the Y of Q_DEC, or none for a SETPOINT (44_telemetry.md R143). -/
def fieldValue (k : FieldKind) (raw : Nat) : Option Rat :=
  match k with
  | .q fmt => some (qValue fmt raw)
  | .setpoint => none

/-- The fields of a layout read in order from s; none where one would extend past the end of s
(44_telemetry.md R143; 20_memory.md R40; log 12). -/
def readFields (s : Bytes) (fs : List FieldDesc) : Option (List FieldVal) :=
  match fs with
  | [] => some []
  | f :: fs =>
    match readField s f.ofs f.width, readFields s fs with
    | some raw, some vs => some (⟨f.name, raw, fieldValue f.kind raw⟩ :: vs)
    | _, _ => none

/-! ### Configurations -/

/-- A field descriptor is well formed in a block of length L: it ends inside the block, a
descriptor's byte width is that of the field, and a SETPOINT has n = 4 (44_telemetry.md R142;
log 11). -/
def fieldWf (len : Nat) (f : FieldDesc) : Bool :=
  decide (f.ofs + f.width.bytes ≤ len) &&
  match f.kind with
  | .q fmt => hasWidth fmt && (qWidth fmt == 8 * f.width.bytes)
  | .setpoint => f.width == .w4

/-- A layout is well formed: every field is, and field names are unique (44_telemetry.md R142). -/
def blockWf (b : BlockDesc) : Bool :=
  b.fields.all (fieldWf b.len) && decide ((b.fields.map (·.name)).Nodup)

/-- A configuration is well formed (10_state.md R28): the framer octets pairwise distinct, P_TM_ID
injective, every layout well formed, the four mode codes pairwise distinct. -/
def configWf (c : Config) : Bool :=
  decide ([c.flag, c.esc, c.escFlag, c.escEsc].Nodup) &&
  decide (((tmBlocks c).map (·.id)).Nodup) &&
  (tmBlocks c).all blockWf &&
  decide ([0x02#8, c.modeCurrent, c.modeTorque, c.modePwm].Nodup)

end Sys2Proof.Machine
end

