-- ==== Sys2Proof/Machine/Cksum.lean ====
section
/-! DEFINITION. CK_APPEND, CK_VERIFY and CK_STRIP (41_checksum.md). -/

namespace Sys2Proof.Machine

/-- CK_APPEND (41_checksum.md R109). -/
def execCkAppend (s : State) : Host.Outcome State Fault Refusal :=
  .next (s.ret { r := s.port.a ++ trailer s.cfg s.port.a })

/-- CK_VERIFY (41_checksum.md R110): a short or mismatching input gives false, never an error. -/
def execCkVerify (s : State) : Host.Outcome State Fault Refusal :=
  .next (s.ret { y := .bool (verifies s.cfg s.port.a) })

/-- CK_STRIP (41_checksum.md R111): it does not verify. -/
def execCkStrip (s : State) : Host.Outcome State Fault Refusal :=
  if s.port.a.length < 2 then .next (s.raise .eShort 0)
  else .next (s.ret { r := slice s.port.a 0 (s.port.a.length - 2) })

end Sys2Proof.Machine
end

