-- ==== Sys2Proof/Machine/FixedPoint.lean ====
section
/-! DEFINITION. Q_ENC, Q_DEC, LE_PUT and LE_GET (43_fixed_point.md). -/

namespace Sys2Proof.Machine

/-- Q_ENC (43_fixed_point.md R134). -/
def execQEnc (f : QFormat) (s : State) : Host.Outcome State Fault Refusal :=
  if hasWidth f then
    match saturate f (real64 s.port.x.f64) with
    | none => .next (s.raise .eNan 0)
    | some y =>
      .next (s.ret {
        y := .int (toPattern (qWidth f) (trunc (y * pow2 f.fb.toNat)))
        range := rangeFlag f (real64 s.port.x.f64) })
  else .next (s.raise .eFormat 0)

/-- Q_DEC (43_fixed_point.md R135): every W-bit pattern decodes. -/
def execQDec (f : QFormat) (s : State) : Host.Outcome State Fault Refusal :=
  if hasWidth f then
    if 2 ^ qWidth f ≤ s.port.x.u32.toNat then .next (s.raise .eOperand 0)
    else .next (s.ret { y := .rat (qValue f s.port.x.u32.toNat) })
  else .next (s.raise .eFormat 0)

/-- LE_PUT (43_fixed_point.md R139): it does not truncate. -/
def execLePut (n : FieldWidth) (s : State) : Host.Outcome State Fault Refusal :=
  if 2 ^ (8 * n.bytes) ≤ s.port.x.u32.toNat then .next (s.raise .eOperand 0)
  else .next (s.ret { r := leBytes n.bytes s.port.x.u32.toNat })

/-- LE_GET (43_fixed_point.md R140): the result is unsigned. -/
def execLeGet (n : FieldWidth) (ofs : BitVec 16) (s : State) : Host.Outcome State Fault Refusal :=
  match readField s.port.a ofs.toNat n with
  | none => .next (s.raise .eLength 0)
  | some v => .next (s.ret { y := .int v })

end Sys2Proof.Machine
end

