-- ==== Sys2Proof/Machine/FrameModel.lean ====
section
/-! DEFINITION. FR_MKREQ, FR_MKREP, FR_PARSE and FR_VALID (42_frame_model.md). -/

namespace Sys2Proof.Machine

/-- FR_MKREQ (42_frame_model.md R119). -/
def execFrMkreq (dest src : BitVec 7) (cmd : BitVec 5) (s : State) :
    Host.Outcome State Fault Refusal :=
  .next (s.build dest src cmd (requestControl cmd))

/-- FR_MKREP (42_frame_model.md R120). -/
def execFrMkrep (dest src : BitVec 7) (cmd : BitVec 5) (ack : Bool) (s : State) :
    Host.Outcome State Fault Refusal :=
  .next (s.build dest src cmd (replyControl cmd ack))

/-- FR_PARSE (42_frame_model.md R122). -/
def execFrParse (s : State) : Host.Outcome State Fault Refusal :=
  match parse s.port.a with
  | none => .next (s.raise .eFraming 0)
  | some f => .next (s.ret { r := f.payload, record := .frame (frameRec f) })

/-- FR_VALID, its checks in the order of 42_frame_model.md R124, R125. -/
def execFrValid (s : State) : Host.Outcome State Fault Refusal :=
  match parse s.port.a with
  | none => .next (s.raise .eFraming 1)
  | some q =>
    match parse s.port.b with
    | none => .next (s.raise .eFraming 2)
    | some p =>
      if cmdBits p.control ≠ cmdBits q.control then .next (s.raise .eMismatch 1)
      else if reqBit p.control = false ∧ ackBit p.control = false then
        .next (s.ret { errorResult .eNack 0 with r := p.payload })
      else if reqBit p.control = true then .next (s.raise .eMismatch 2)
      else .next (s.ret {})

end Sys2Proof.Machine
end

