-- ==== Sys2Proof/Machine/Framer.lean ====
section
/-! DEFINITION. FRM_ENC, FRM_FEED and FRM_RST (40_framer.md). -/

namespace Sys2Proof.Machine

/-- FRM_ENC (40_framer.md R101). -/
def execFrmEnc (s : State) : Host.Outcome State Fault Refusal :=
  .next (s.ret { r := frameEncode s.cfg s.port.a })

/-- FRM_FEED (40_framer.md R104). On overflow the mark FAULT is set and no result is returned
(R103; log 8). -/
def execFrmFeed (s : State) : Host.Outcome State Fault Refusal :=
  let d := feed s.cfg s.decoder s.port.a
  match d.fault with
  | none => .next ((s.withDecoder d).ret { frames := d.frames })
  | some _ => .next (s.withDecoder d)

/-- FRM_RST (40_framer.md R105): FAULT is not cleared. -/
def execFrmRst (s : State) : Host.Outcome State Fault Refusal :=
  .next ((s.withDecoder ⟨[], false, s.fault, []⟩).ret {})

end Sys2Proof.Machine
end

