-- ==== Sys2Proof/Machine/Telemetry.lean ====
section
/-! DEFINITION. TM_DEC and SP_PROJ (44_telemetry.md). -/

namespace Sys2Proof.Machine

/-- TM_DEC (44_telemetry.md R143): all or nothing, E_UNKNOWN_BLOCK before E_LENGTH (R147). A field
past the end cannot occur in a well-formed configuration; it too raises E_LENGTH
(20_memory.md R40; log 12). -/
def execTmDec (sel : Byte) (s : State) : Host.Outcome State Fault Refusal :=
  match findBlock s.cfg sel with
  | none => .next (s.raise .eUnknownBlock 0)
  | some b =>
    if s.port.a.length < b.len then .next (s.raise .eLength 0)
    else
      match readFields s.port.a b.fields with
      | none => .next (s.raise .eLength 0)
      | some vs => .next (s.ret { record := .block b.name vs })

/-- SP_PROJ (44_telemetry.md R145). -/
def execSpProj (sel : Byte) (s : State) : Host.Outcome State Fault Refusal :=
  match setpointFormat s.cfg sel with
  | none => .next (s.raise .eMode 0)
  | some f => .next (s.ret { y := .rat (qValue f s.port.x.u32.toNat) })

end Sys2Proof.Machine
end

