-- ==== Sys2Proof/Machine/Dispatch.lean ====
section
/-! DEFINITION. The meaning of each instruction: one arm per constructor of Instr. -/

namespace Sys2Proof.Machine

def exec (i : Instr) (s : State) : Host.Outcome State Fault Refusal :=
  match i with
  | .frmEnc => Sys2Proof.Machine.execFrmEnc s
  | .frmFeed => Sys2Proof.Machine.execFrmFeed s
  | .frmRst => Sys2Proof.Machine.execFrmRst s
  | .ckAppend => Sys2Proof.Machine.execCkAppend s
  | .ckVerify => Sys2Proof.Machine.execCkVerify s
  | .ckStrip => Sys2Proof.Machine.execCkStrip s
  | .qEnc fmt => Sys2Proof.Machine.execQEnc fmt s
  | .qDec fmt => Sys2Proof.Machine.execQDec fmt s
  | .lePut width => Sys2Proof.Machine.execLePut width s
  | .leGet width ofs => Sys2Proof.Machine.execLeGet width ofs s
  | .frMkreq dest src cmd => Sys2Proof.Machine.execFrMkreq dest src cmd s
  | .frMkrep dest src cmd ack => Sys2Proof.Machine.execFrMkrep dest src cmd ack s
  | .frParse => Sys2Proof.Machine.execFrParse s
  | .frValid => Sys2Proof.Machine.execFrValid s
  | .tmDec sel => Sys2Proof.Machine.execTmDec sel s
  | .spProj sel => Sys2Proof.Machine.execSpProj sel s

end Sys2Proof.Machine
end

