-- ==== Sys2Proof/Machine/Run.lean ====
section
/-! DEFINITION. Running one operation: its word is decoded, then the instruction runs or the word is
illegal (30_encoding.md R57). -/

namespace Sys2Proof.Machine

/-- Run one operation: its word is checked before any operand is read, and an illegal word raises
E_ILLEGAL_OP(0) and writes no state (30_encoding.md R57). -/
def runWord (w : OpWord) (s : State) : Host.Outcome State Fault Refusal :=
  match decode w with
  | .ok i => exec i s
  | .error _ => .next (s.raise .eIllegalOp 0)

end Sys2Proof.Machine
end

