-- ==== Sys2Proof/Machine/Step.lean ====
section
/-! DEFINITION. One step of the block: the next operation the host has issued, as one atomic step
(20_memory.md R41, R44; 70_reset_and_hazards.md R164). -/

namespace Sys2Proof.Machine

/-- One step. A configuration that is not well formed is refused (60_exceptions.md R160); a state
with FAULT set has no further step (R159); with no operation issued the block waits
(70_reset_and_hazards.md R161; log 5); otherwise the next operation runs (R164). -/
def step (s : State) : Host.Outcome State Fault Refusal :=
  if configWf s.cfg then
    match s.fault with
    | some f => .fault f
    | none =>
      match s.pending with
      | [] => .next s
      | q :: rest => runWord q.opw (s.issue q rest)
  else .refused .illFormedConfig

/-- s with the operation word w as the word of the host's next operation. If the host has issued
none, one with idle operands is issued (log 6). -/
def State.withFetchWord (s : State) (nbits w : Nat) : State :=
  match s.pending with
  | [] => { s with pending := [⟨tableWord nbits w, Operands.idle⟩] }
  | q :: rest => { s with pending := ⟨tableWord nbits w, q.args⟩ :: rest }

end Sys2Proof.Machine
end

