-- ==== Sys2Proof/Machine/Wire.lean ====
section
/-! DEFINITION. The host's side of the wire format: the named commands with their payload shapes, and
the pseudo-operations that name an operand or a block (30_encoding.md R59, R60, R69 to R71). The block
itself checks no payload (R69), so no operation uses these shapes. -/

namespace Sys2Proof.Machine

/-- The commands of the closed enumeration (30_encoding.md R60). -/
inductive Command where
  | ping | peek | poke | appTm | appCmd | clearFault | configProt | tripLcl
  deriving DecidableEq, Repr

/-- The 5-bit code of a command (30_encoding.md R60). -/
def Command.code (c : Command) : BitVec 5 :=
  match c with
  | .ping => 0#5
  | .peek => 2#5
  | .poke => 3#5
  | .appTm => 7#5
  | .appCmd => 8#5
  | .clearFault => 9#5
  | .configProt => 10#5
  | .tripLcl => 11#5

/-- A command with the values its request carries (30_encoding.md R69). TRIP-LCL's request payload is
not stated, so it is any string. -/
inductive CommandRequest where
  | ping
  | peek (addr : Byte)
  | poke (addr : Byte) (value : BitVec 32)
  | appTm (block : Byte)
  | appCmd (mode : Byte) (setpoint : BitVec 32)
  | clearFault (mask : BitVec 32)
  | configProt (bits : BitVec 32)
  | tripLcl (payload : Bytes)
  deriving DecidableEq, Repr

/-- The command of a request. -/
def CommandRequest.command (q : CommandRequest) : Command :=
  match q with
  | .ping => .ping
  | .peek _ => .peek
  | .poke _ _ => .poke
  | .appTm _ => .appTm
  | .appCmd _ _ => .appCmd
  | .clearFault _ => .clearFault
  | .configProt _ => .configProt
  | .tripLcl _ => .tripLcl

/-- The request payload (30_encoding.md R69, R71). -/
def CommandRequest.payload (q : CommandRequest) : Bytes :=
  match q with
  | .ping => []
  | .peek addr => [addr]
  | .poke addr value => [addr] ++ leBytes 4 value.toNat
  | .appTm block => [block]
  | .appCmd mode setpoint => [mode] ++ leBytes 4 setpoint.toNat
  | .clearFault mask => leBytes 4 mask.toNat
  | .configProt bits => leBytes 4 bits.toNat
  | .tripLcl payload => payload

/-- The numeric fields of a request payload: width, offset and value (20_memory.md R35;
30_encoding.md R69). -/
def CommandRequest.fields (q : CommandRequest) : List (FieldWidth × BitVec 16 × Nat) :=
  match q with
  | .ping => []
  | .peek addr => [(.w1, 0, addr.toNat)]
  | .poke addr value => [(.w1, 0, addr.toNat), (.w4, 1, value.toNat)]
  | .appTm block => [(.w1, 0, block.toNat)]
  | .appCmd mode setpoint => [(.w1, 0, mode.toNat), (.w4, 1, setpoint.toNat)]
  | .clearFault mask => [(.w4, 0, mask.toNat)]
  | .configProt bits => [(.w4, 0, bits.toNat)]
  | .tripLcl _ => []

/-- Whether a reply payload has the shape of R69 for the request it answers: 5 bytes for PING, 4 for
PEEK, none for POKE, the block's length for APP-TM; where no shape is stated, any string. -/
def replyShape (c : Config) (q : CommandRequest) (p : Bytes) : Bool :=
  match q with
  | .ping => p.length == 5
  | .peek _ => p.length == 4
  | .poke _ _ => p.length == 0
  | .appTm block =>
    match findBlock c block with
    | some b => p.length == b.len
    | none => false
  | .appCmd _ _ => true
  | .clearFault _ => true
  | .configProt _ => true
  | .tripLcl _ => true

/-- The items of a PING reply: one byte each (30_encoding.md R70). -/
structure PingReply where
  deviceType : Byte
  serial : Byte
  version : Byte × Byte × Byte
  deriving DecidableEq, Repr

/-- The split of a PING reply payload; none where it has not 5 bytes (30_encoding.md R70). -/
def pingReply (p : Bytes) : Option PingReply :=
  match p with
  | [d, s, v₀, v₁, v₂] => some ⟨d, s, v₀, v₁, v₂⟩
  | _ => none

/-- `FRM_FEED1 b` is `FRM_FEED A=[b]` (30_encoding.md R59). -/
def frmFeed1 (b : Byte) : Request := ⟨encode .frmFeed, [b], [], ⟨0#64, 0#32⟩⟩

/-- `TM_DEC <BLOCK>` is `TM_DEC sel=P_TM_ID(<BLOCK>)` (30_encoding.md R59). -/
def tmDecBlock (b : BlockDesc) : Instr := .tmDec b.id

end Sys2Proof.Machine
end

