-- ==== Sys2Proof/WellFormed.lean ====
section
/-! DEFINITION. Which instruction terms stand for a legal operation word (30_encoding.md R57).
Clauses (a) to (e) cannot be broken by a term: the syntax has no place for an unassigned OP, a set
must-be-zero bit, WSEL = 11, an offset of LE_PUT or an ACK of FR_MKREQ. Clause (f) can. -/

namespace Sys2Proof

/-- A term with an operation word: CMD of FR_MKREQ and FR_MKREP is assigned (R57 (f)). -/
def Instr.wf (i : Instr) : Bool :=
  match i with
  | .frmEnc => true
  | .frmFeed => true
  | .frmRst => true
  | .ckAppend => true
  | .ckVerify => true
  | .ckStrip => true
  | .qEnc _ => true
  | .qDec _ => true
  | .lePut _ => true
  | .leGet _ _ => true
  | .frMkreq _ _ cmd => knownCommand cmd
  | .frMkrep _ _ cmd _ => knownCommand cmd
  | .frParse => true
  | .frValid => true
  | .tmDec _ => true
  | .spProj _ => true

end Sys2Proof
end

