-- ==== Sys2Proof/Safety.lean ====
section
/-! DEFINITION. The terms statements use: runs and their end (70_reset_and_hazards.md R164), the
invariant of the machine, operands placed at the ports, the bit-flip property of a checksum
(41_checksum.md R112), and the illegal words of 30_encoding.md R57 spelled out. -/

namespace Sys2Proof.Machine

/-! ### Runs -/

/-- k steps, stopping at the first fault or refusal. -/
def runSteps (k : Nat) (s : State) : Host.Outcome State Fault Refusal :=
  match k with
  | 0 => .next s
  | k + 1 =>
    match step s with
    | .next t => runSteps k t
    | .fault f => .fault f
    | .refused r => .refused r

/-- A final state: every operation has returned and FAULT is clear (70_reset_and_hazards.md
R164). -/
def State.final (s : State) : Prop := s.pending = [] ∧ s.fault = none

/-- The observation of a final state: the results in order, with the final BUF and EP
(70_reset_and_hazards.md R164). -/
def State.observation (s : State) : List Result × Bytes × Bool := (s.results, s.buf, s.ep)

/-! ### Operands at the ports -/

/-- s with A at its port. -/
def State.withA (s : State) (a : Bytes) : State := { s with port := { s.port with a := a } }

/-- s with A and B at their ports. -/
def State.withAB (s : State) (a b : Bytes) : State :=
  { s with port := { s.port with a := a, b := b } }

/-- s with X.u32 at its port. -/
def State.withU32 (s : State) (x : BitVec 32) : State :=
  { s with port := { s.port with x := { s.port.x with u32 := x } } }

/-! ### What a result record may hold -/

/-- A result record of the block: a status of 60_exceptions.md R150, a detail only where R151 gives
one, no empty frame (40_framer.md R106), RANGE only beside success (10_state.md R26), and beside an
error status nothing but the payload of E_NACK (R152). -/
def Result.sound (r : Result) : Prop :=
  r.status.toNat ≤ 0x0B ∧
  (r.detail ≠ 0 → (r.status = 0x03#8 ∨ r.status = 0x01#8) ∧ (r.detail = 1 ∨ r.detail = 2)) ∧
  (r.status = 0x03#8 → r.detail ≠ 0) ∧
  [] ∉ r.frames ∧
  (r.range = true → r.status = 0x00#8) ∧
  (r.status ≠ 0x00#8 →
    r.y = .int 0 ∧ r.frames = [] ∧ r.record = .empty ∧ (r.status = 0x02#8 ∨ r.r = []))

/-- The invariant of the machine: a well-formed configuration (10_state.md R28), BUF within
P_BUF_CAP (R19), FAULT set only under a finite P_BUF_CAP (60_exceptions.md R159), and every result
returned so far sound. -/
def State.Inv (s : State) : Prop :=
  configWf s.cfg = true ∧
  (∀ k, s.cfg.bufCap = some k → s.buf.length ≤ k) ∧
  (s.fault ≠ none → s.cfg.bufCap ≠ none) ∧
  ∀ r ∈ s.results, r.sound

/-! ### Checksums -/

/-- s with bit k of byte i flipped. -/
def flipBit (s : Bytes) (i k : Nat) : Bytes := s.modify i (fun b => b ^^^ (1#8 <<< k))

/-- CK_SINGLE_BIT, a property of a configuration (41_checksum.md R112). -/
def CkSingleBit (c : Config) : Prop :=
  ∀ (d : Bytes) (i k : Nat), i < d.length + 2 → k < 8 →
    verifies c (flipBit (d ++ trailer c d) i k) = false

/-! ### Illegal words -/

/-- The OP values of the opcode map with format N (30_encoding.md R55). -/
def opsN : List (BitVec 8) := [0x01#8, 0x02#8, 0x03#8, 0x10#8, 0x11#8, 0x12#8, 0x32#8, 0x33#8]
/-- Format Q. -/
def opsQ : List (BitVec 8) := [0x20#8, 0x21#8]
/-- Format L. -/
def opsL : List (BitVec 8) := [0x22#8, 0x23#8]
/-- Format F. -/
def opsF : List (BitVec 8) := [0x30#8, 0x31#8]
/-- Format T. -/
def opsT : List (BitVec 8) := [0x40#8, 0x41#8]

/-- The clauses (a) to (f) of 30_encoding.md R57, over the fields of the word as numbers: bits hi
down to lo of w are `w / 2^lo % 2^(hi - lo + 1)`. -/
def illegalWord (w : OpWord) : Prop :=
  let op := w.extractLsb' 24 8
  let bits := fun hi lo : Nat => w.toNat / 2 ^ lo % 2 ^ (hi - lo + 1)
  op ∉ opsN ++ opsQ ++ opsL ++ opsF ++ opsT ∨
  ((op ∈ opsN ∧ bits 23 0 ≠ 0) ∨ (op ∈ opsQ ∧ bits 23 17 ≠ 0) ∨ (op ∈ opsL ∧ bits 21 16 ≠ 0) ∨
    (op ∈ opsF ∧ bits 23 20 ≠ 0) ∨ (op ∈ opsT ∧ bits 23 8 ≠ 0)) ∨
  (op ∈ opsL ∧ bits 23 22 = 3) ∨
  (op = 0x22#8 ∧ bits 15 0 ≠ 0) ∨
  (op = 0x30#8 ∧ bits 19 19 = 1) ∨
  (op ∈ opsF ∧ bits 18 14 ∉ [0, 2, 3, 7, 8, 9, 10, 11])

/-- The row's value restrictions, clauses (c) to (f) of 30_encoding.md R57, which the masks of the
opcode table leave out. -/
def valueRestricted (w : OpWord) : Prop :=
  let op := w.extractLsb' 24 8
  let bits := fun hi lo : Nat => w.toNat / 2 ^ lo % 2 ^ (hi - lo + 1)
  (op ∈ opsL ∧ bits 23 22 = 3) ∨
  (op = 0x22#8 ∧ bits 15 0 ≠ 0) ∨
  (op = 0x30#8 ∧ bits 19 19 = 1) ∨
  (op ∈ opsF ∧ bits 18 14 ∉ [0, 2, 3, 7, 8, 9, 10, 11])

end Sys2Proof.Machine
end

