-- ==== Sys2Proof/Certificates/Slice0/Obligations.lean ====
section
/-! DEFINITION. The statements for the provers, by file of the spec. -/

open Sys2Proof Sys2Proof.Machine

/-! ### 30_encoding.md -/

/-- Every well-formed instruction decodes from its own word (R49 to R55). -/
def Obligations.DecodeOfEncode : Prop :=
  ∀ i : Instr, i.wf = true → decode (encode i) = .ok i

/-- A legal word is the word of the instruction it decodes to, so no bit of it is dropped, and that
instruction is well formed (R49 to R58). -/
def Obligations.EncodeOfDecode : Prop :=
  ∀ (w : OpWord) (i : Instr), decode w = .ok i → encode i = w ∧ i.wf = true

/-- The decoder is the opcode table: no two rows match one word, and a word decodes exactly when a
row matches it and no value restriction forbids it, to an instruction of that row (R58). -/
def Obligations.DecoderFollowsOpcodeTable : Prop :=
  ∀ w : OpWord,
    (∀ r₁ ∈ opcodeTable, ∀ r₂ ∈ opcodeTable, w &&& r₁.mask = r₁.pattern →
      w &&& r₂.mask = r₂.pattern → r₁ = r₂) ∧
    (∀ i, decode w = .ok i → ¬ valueRestricted w ∧
      ∃ r ∈ opcodeTable, r.mnemonic = mnemonicOf i ∧ w &&& r.mask = r.pattern) ∧
    (∀ r ∈ opcodeTable, w &&& r.mask = r.pattern → ¬ valueRestricted w →
      ∃ i, decode w = .ok i ∧ mnemonicOf i = r.mnemonic)

/-- A word is illegal exactly by the clauses (a) to (f) of R57; it ends with E_ILLEGAL_OP(0), and
nothing else of the state changes. -/
def Obligations.IllegalWordsRaiseIllegalOp : Prop :=
  ∀ (w : OpWord) (s : State),
    (illegalWord w ↔ ∀ i, decode w ≠ .ok i) ∧
    (illegalWord w → runWord w s = .next { s with results := s.results ++ [{ status := 0x06#8 }] })

/-- Words written out from the field tables decode to the instructions they stand for
(R55; 95_test_vectors.md L2). -/
def Obligations.SampleWordsDecode : Prop :=
  decode 0x02000000#32 = .ok .frmFeed ∧
  decode 0x12000000#32 = .ok .ckStrip ∧
  decode 0x20010D12#32 = .ok (.qEnc ⟨true, 13, 18⟩) ∧
  decode 0x23800001#32 = .ok (.leGet .w4 1) ∧
  decode 0x31080391#32 = .ok (.frMkrep 0x11 0x07 0 true) ∧
  decode 0x41000002#32 = .ok (.spProj 0x02)

/-- A step of a machine with a well-formed configuration, FAULT clear and an operation issued puts
that operation's operands at the ports and takes it off the queue (log 3, 5). Where its word decodes,
the step runs the decoded instruction there; where it does not, the step adds the E_ILLEGAL_OP(0)
record and changes nothing else (R57; 70_reset_and_hazards.md R164). -/
def Obligations.StepRunsDecodedInstruction : Prop :=
  ∀ (s : State) (q : Request) (rest : List Request),
    configWf s.cfg = true → s.fault = none → s.pending = q :: rest →
    (∀ i : Instr, decode q.opw = .ok i →
      step s = exec i { s with port := q.args, pending := rest }) ∧
    ((∀ i : Instr, decode q.opw ≠ .ok i) →
      step s = .next { s with
        port := q.args, pending := rest, results := s.results ++ [{ status := 0x06#8 }] })

/-! ### 40_framer.md -/

/-- The escape map, for distinct octets (R100). -/
def Obligations.EscapeMap : Prop :=
  ∀ c : Config, configWf c = true →
    escByte c c.flag = [c.esc, c.escFlag] ∧ escByte c c.esc = [c.esc, c.escEsc] ∧
    (∀ b, b ≠ c.flag → b ≠ c.esc → escByte c b = [b]) ∧
    (∀ d b, escAll c (b :: d) = escByte c b ++ escAll c d) ∧ escAll c [] = []

/-- FRM_ENC wraps the escaped payload in delimiters and touches nothing else; the string has length
2 + len(A) + k and holds no other delimiter (R101). -/
def Obligations.FrmEncFramesPayload : Prop :=
  ∀ s : State, ∃ m : Bytes,
    exec .frmEnc s =
      .next { s with results := s.results ++ [{ r := s.cfg.flag :: (m ++ [s.cfg.flag]) }] } ∧
    m = s.port.a.flatMap (escByte s.cfg) ∧
    m.length = s.port.a.length + s.port.a.countP (fun b => b = s.cfg.flag ∨ b = s.cfg.esc) ∧
    (configWf s.cfg = true → s.cfg.flag ∉ m)

/-- FRM_FEED of one byte: the branches of R102 in their order, with `app` as R103 has it. That the
state an overflow leaves has the BUF and EP written here is the model's reading (log 8). -/
def Obligations.FrmFeedByteStep : Prop :=
  ∀ (s : State) (b : Byte), s.fault = none → s.port.a = [b] →
    let c := s.cfg
    let app : Bytes → Host.Outcome State Fault Refusal := fun str =>
      if c.bufCap = none ∨ ∃ k, c.bufCap = some k ∧ s.buf.length + str.length ≤ k then
        .next { s with buf := s.buf ++ str, ep := false, results := s.results ++ [{}] }
      else .next { s with ep := false, fault := some .overflow }
    exec .frmFeed s =
      if s.ep = true then
        if b = c.escFlag then app [c.flag]
        else if b = c.escEsc then app [c.esc]
        else app [c.esc, b]
      else if b = c.flag then
        if s.buf ≠ [] then
          .next { s with buf := [], results := s.results ++ [{ frames := [s.buf] }] }
        else .next { s with results := s.results ++ [{}] }
      else if b = c.esc then .next { s with ep := true, results := s.results ++ [{}] }
      else app [b]

/-- With P_BUF_CAP = ∞, FRM_FEED accepts every byte string: it returns status 0 with some frames,
none of them empty, and writes BUF and EP only; the empty chunk changes neither (R104, R106 (e)). -/
def Obligations.FrmFeedAcceptsEveryChunk : Prop :=
  ∀ s : State, s.fault = none → s.cfg.bufCap = none →
    ∃ (buf : Bytes) (ep : Bool) (frames : List Bytes),
      exec .frmFeed s =
        .next { s with buf := buf, ep := ep, results := s.results ++ [{ frames := frames }] } ∧
      [] ∉ frames ∧
      (s.port.a = [] → buf = s.buf ∧ ep = s.ep ∧ frames = [])

/-- Chunking invariance: feeding x and then y gives the frames of x ++ y, in order, and the same
BUF, EP and FAULT (R106 (c); also under a finite P_BUF_CAP, where the chunk x must not overflow). -/
def Obligations.FrmFeedChunkingInvariance : Prop :=
  ∀ (s t u : State) (x y : Bytes) (fx fy : List Bytes), s.fault = none →
    exec .frmFeed (s.withA x) = .next t → t.results = s.results ++ [{ frames := fx }] →
    exec .frmFeed (t.withA y) = .next u → u.results = t.results ++ [{ frames := fy }] →
    exec .frmFeed (s.withA (x ++ y)) =
      .next { s.withA (x ++ y) with
        buf := u.buf, ep := u.ep, results := s.results ++ [{ frames := fx ++ fy }] }

/-- An overflow happens only under a finite P_BUF_CAP; it sets FAULT, returns no result, keeps BUF
within the capacity, and writes nothing but BUF, EP and FAULT (R103; what BUF and EP hold in the
faulted state is the model's reading, log 8). -/
def Obligations.FrmFeedOverflowSetsFault : Prop :=
  ∀ s t : State, s.fault = none → exec .frmFeed s = .next t →
    (t.fault = none ∧ ∃ r, t.results = s.results ++ [r] ∧ r.status = 0x00#8) ∨
    (t.fault = some .overflow ∧
      t = { s with buf := t.buf, ep := t.ep, fault := some .overflow } ∧
      ∃ k, s.cfg.bufCap = some k ∧ (s.buf.length ≤ k → t.buf.length ≤ k))

/-- A plain byte beyond a full buffer is an overflow: k + 1 bytes that are neither delimiter nor
escape octet, from the empty buffer of capacity k, set FAULT and return no result (R103). That BUF
holds the first k bytes and EP is unchanged in the faulted state is the model's reading (log 8). -/
def Obligations.FrmFeedFaultsBeyondCapacity : Prop :=
  ∀ (s : State) (k : Nat), s.fault = none → s.buf = [] → s.ep = false → s.cfg.bufCap = some k →
    s.port.a.length = k + 1 → (∀ b ∈ s.port.a, b ≠ s.cfg.flag ∧ b ≠ s.cfg.esc) →
    exec .frmFeed s = .next { s with buf := s.port.a.take k, fault := some .overflow }

/-- Reversibility: from the reset decoder, feeding FRM_ENC(d), d non-empty, in any chunking, emits
exactly d and ends with the reset decoder. The operations run through `step` (R106 (a), R167). -/
def Obligations.FramerReversibleInAnyChunking : Prop :=
  ∀ (s : State) (d : Bytes) (chunks : List Request),
    configWf s.cfg = true → s.fault = none → s.buf = [] → s.ep = false → d ≠ [] →
    (∀ k, s.cfg.bufCap = some k → d.length ≤ k) →
    s.pending = chunks → (∀ q ∈ chunks, q.opw = 0x02000000#32) →
    (chunks.map (·.args.a)).flatten = [s.cfg.flag] ++ d.flatMap (escByte s.cfg) ++ [s.cfg.flag] →
    ∃ (t : State) (rs : List Result),
      runSteps chunks.length s = .next t ∧ t.final ∧
      t.observation = (s.results ++ rs, [], false) ∧ rs.length = chunks.length ∧
      (∀ r ∈ rs, r.status = 0x00#8) ∧ rs.flatMap (·.frames) = [d]

/-- The empty payload emits no frame (R106 (b); 90_conflicts.md C1). -/
def Obligations.EmptyPayloadEmitsNoFrame : Prop :=
  ∀ s : State, s.fault = none → s.buf = [] → s.ep = false →
    s.port.a = [s.cfg.flag, s.cfg.flag] →
    exec .frmFeed s = .next { s with results := s.results ++ [{}] }

/-- Resynchronization (R106 (d)): a partial frame is closed by the leading delimiter and emitted
first; a pending escape swallows that delimiter and one corrupted frame is emitted; after FRM_RST
exactly the payload is emitted. P_BUF_CAP = ∞. -/
def Obligations.StaleDecoderStateCorruptsReply : Prop :=
  ∀ (s : State) (d : Bytes), configWf s.cfg = true → s.fault = none → s.cfg.bufCap = none →
    d ≠ [] →
    s.port.a = [s.cfg.flag] ++ d.flatMap (escByte s.cfg) ++ [s.cfg.flag] →
    (s.ep = false → s.buf ≠ [] →
      exec .frmFeed s =
        .next { s with buf := [], results := s.results ++ [{ frames := [s.buf, d] }] }) ∧
    (s.ep = true →
      exec .frmFeed s =
        .next { s with
          buf := [], ep := false
          results := s.results ++ [{ frames := [s.buf ++ [s.cfg.esc, s.cfg.flag] ++ d] }] }) ∧
    (∃ t, exec .frmRst s = .next t ∧
      exec .frmFeed t = .next { t with results := t.results ++ [{ frames := [d] }] })

/-- FRM_RST clears BUF and EP, returns status 0, leaves FAULT and the rest as they are, and a second
one changes neither again (R105; 20_memory.md R42). -/
def Obligations.FrmRstDiscardsPartialFrame : Prop :=
  ∀ s : State,
    exec .frmRst s = .next { s with buf := [], ep := false, results := s.results ++ [{}] } ∧
    (s.buf = [] → s.ep = false →
      exec .frmRst s = .next { s with results := s.results ++ [{}] })

/-! ### 41_checksum.md -/

/-- CK_APPEND: the data with the two bytes of its checksum behind it, low byte first under LE and
high byte first under BE (R108, R109). -/
def Obligations.CkAppendAddsTrailer : Prop :=
  ∀ s : State, ∃ lo hi : Byte,
    (hi ++ lo : BitVec 16) = checksumOf s.cfg.cksum s.port.a ∧
    exec .ckAppend s =
      .next { s with
        results := s.results ++
          [{ r := s.port.a ++ (if s.cfg.ckOrder = .le then [lo, hi] else [hi, lo]) }] }

/-- CK_VERIFY answers true exactly for a string that is some data with its own trailer, and never an
error: a string shorter than 2 gives false (R110). -/
def Obligations.CkVerifyIffTrailerMatches : Prop :=
  ∀ s : State, ∃ y : Bool,
    exec .ckVerify s = .next { s with results := s.results ++ [{ y := .bool y }] } ∧
    (y = true ↔ ∃ d : Bytes, s.port.a = d ++ trailer s.cfg d) ∧
    (s.port.a.length < 2 → y = false)

/-- CK_STRIP removes the last 2 bytes whatever they are; fewer than 2 raise E_SHORT (R111). -/
def Obligations.CkStripRemovesTwoBytes : Prop :=
  ∀ s : State,
    (∀ (d : Bytes) (t₀ t₁ : Byte), s.port.a = d ++ [t₀, t₁] →
      exec .ckStrip s = .next { s with results := s.results ++ [{ r := d }] }) ∧
    (s.port.a.length < 2 →
      exec .ckStrip s = .next { s with results := s.results ++ [{ status := 0x0A#8 }] })

/-- The laws of R113: what CK_APPEND returns verifies and strips back to the data, and appending to
what CK_STRIP returned gives the string back exactly when it is long enough and verifies. -/
def Obligations.ChecksumLaws : Prop :=
  ∀ (s : State) (d : Bytes),
    (∃ p : Bytes,
      exec .ckAppend (s.withA d) = .next { s.withA d with results := s.results ++ [{ r := p }] } ∧
      exec .ckVerify (s.withA p) =
        .next { s.withA p with results := s.results ++ [{ y := .bool true }] } ∧
      exec .ckStrip (s.withA p) = .next { s.withA p with results := s.results ++ [{ r := d }] }) ∧
    ((∃ e : Bytes,
        exec .ckStrip (s.withA d) = .next { s.withA d with results := s.results ++ [{ r := e }] } ∧
        exec .ckAppend (s.withA e) =
          .next { s.withA e with results := s.results ++ [{ r := d }] }) ↔
      (2 ≤ d.length ∧
        exec .ckVerify (s.withA d) =
          .next { s.withA d with results := s.results ++ [{ y := .bool true }] }))

/-- CK_SINGLE_BIT (R112) holds for every configuration whose checksum is a CRC with an odd
polynomial, in either trailer order; it does not hold for every configuration. The CRC variant of the
parameter is the model's own (log 2). -/
def Obligations.SingleBitErrorsUnderCrc : Prop :=
  (∀ (c : Config) (poly init xorOut : BitVec 16), c.cksum = .crc16 poly init xorOut →
    poly.getLsbD 0 = true → CkSingleBit c) ∧
  ∃ c : Config, configWf c = true ∧ ¬ CkSingleBit c

/-! ### 42_frame_model.md -/

/-- FR_MKREQ: header dest, src, 0x80 + CMD, then the payload; the payload is not checked; an
unassigned CMD raises E_ILLEGAL_OP (R119, R117; no word decodes to such a term, log 15). -/
def Obligations.FrMkreqBuildsRequest : Prop :=
  ∀ (s : State) (dest src : BitVec 7) (cmd : BitVec 5),
    (cmd.toNat ∈ [0, 2, 3, 7, 8, 9, 10, 11] →
      exec (.frMkreq dest src cmd) s =
        .next { s with
          results := s.results ++
            [{ r := [BitVec.ofNat 8 dest.toNat, BitVec.ofNat 8 src.toNat,
                  BitVec.ofNat 8 (0x80 + cmd.toNat)] ++ s.port.a }] }) ∧
    (cmd.toNat ∉ [0, 2, 3, 7, 8, 9, 10, 11] →
      exec (.frMkreq dest src cmd) s =
        .next { s with results := s.results ++ [{ status := 0x06#8 }] })

/-- FR_MKREP: header dest, src, 32·ACK + CMD, then the payload; an unassigned CMD raises
E_ILLEGAL_OP (R120, R117; no word decodes to such a term, log 15). -/
def Obligations.FrMkrepBuildsReply : Prop :=
  ∀ (s : State) (dest src : BitVec 7) (cmd : BitVec 5) (ack : Bool),
    (cmd.toNat ∈ [0, 2, 3, 7, 8, 9, 10, 11] →
      exec (.frMkrep dest src cmd ack) s =
        .next { s with
          results := s.results ++
            [{ r := [BitVec.ofNat 8 dest.toNat, BitVec.ofNat 8 src.toNat,
                  BitVec.ofNat 8 ((if ack then 0x20 else 0) + cmd.toNat)] ++ s.port.a }] }) ∧
    (cmd.toNat ∉ [0, 2, 3, 7, 8, 9, 10, 11] →
      exec (.frMkrep dest src cmd ack) s =
        .next { s with results := s.results ++ [{ status := 0x06#8 }] })

/-- Every frame the block builds satisfies the frame invariants: a request has REQ = 1 and ACK = 0,
a reply REQ = 0 and the given ACK, and RSV is 0 in both (R118). -/
def Obligations.BuiltFramesSatisfyInvariants : Prop :=
  ∀ (s : State) (dest src : BitVec 7) (cmd : BitVec 5) (ack : Bool), knownCommand cmd = true →
    (∃ (d r k : Byte) (p : Bytes),
      exec (.frMkreq dest src cmd) s =
        .next { s with results := s.results ++ [{ r := d :: r :: k :: p }] } ∧
      k.getLsbD 7 = true ∧ k.getLsbD 6 = false ∧ k.getLsbD 5 = false ∧
      d.toNat ≤ 127 ∧ r.toNat ≤ 127) ∧
    (∃ (d r k : Byte) (p : Bytes),
      exec (.frMkrep dest src cmd ack) s =
        .next { s with results := s.results ++ [{ r := d :: r :: k :: p }] } ∧
      k.getLsbD 7 = false ∧ k.getLsbD 6 = false ∧ k.getLsbD 5 = ack ∧
      d.toNat ≤ 127 ∧ r.toNat ≤ 127)

/-- FR_PARSE: it fails only on fewer than 3 bytes, keeps every header byte as received, and unpacks
the control byte; KIND is a function of REQ and ACK, KNOWN of the low 5 bits (R61, R62, R116, R121
to R123). -/
def Obligations.FrParseUnpacksHeader : Prop :=
  ∀ s : State,
    (s.port.a.length < 3 →
      exec .frParse s = .next { s with results := s.results ++ [{ status := 0x01#8 }] }) ∧
    (∀ (d r k : Byte) (p : Bytes), s.port.a = d :: r :: k :: p →
      ∃ f : FrameRec,
        exec .frParse s =
          .next { s with results := s.results ++ [{ r := p, record := .frame f }] } ∧
        f.dest = d ∧ f.src = r ∧ f.ctrl = k ∧
        f.req.toNat * 128 + f.rsv.toNat * 64 + f.ack.toNat * 32 + f.cmd.toNat = k.toNat ∧
        (f.kind = .request ↔ f.req = true ∧ f.ack = false) ∧
        (f.kind = .ack ↔ f.req = false ∧ f.ack = true) ∧
        (f.kind = .nack ↔ f.req = false ∧ f.ack = false) ∧
        (f.kind = .invalid ↔ f.req = true ∧ f.ack = true) ∧
        (f.known = true ↔ k.toNat % 32 ∈ [0, 2, 3, 7, 8, 9, 10, 11]))

/-- FR_VALID: the checks and their priority, an illegal word first, over the control bytes as
numbers; addresses, the reserved bit, the payloads and the request's own kind are not checked
(R124 to R126). -/
def Obligations.FrValidChecksInOrder : Prop :=
  ∀ s : State,
    (∀ low : Nat, 0 < low → low < 2 ^ 24 →
      runWord (BitVec.ofNat 32 (0x33000000 + low)) s =
        .next { s with results := s.results ++ [{ status := 0x06#8 }] }) ∧
    (s.port.a.length < 3 →
      exec .frValid s =
        .next { s with results := s.results ++ [{ status := 0x01#8, detail := 1 }] }) ∧
    (3 ≤ s.port.a.length → s.port.b.length < 3 →
      exec .frValid s =
        .next { s with results := s.results ++ [{ status := 0x01#8, detail := 2 }] }) ∧
    (∀ (qd qs qk pd ps pk : Byte) (qp pp : Bytes), s.port.a = qd :: qs :: qk :: qp →
      s.port.b = pd :: ps :: pk :: pp →
      exec .frValid s =
        .next { s with
          results := s.results ++
            [if pk.toNat % 32 ≠ qk.toNat % 32 then { status := 0x03#8, detail := 1 }
              else if pk.toNat / 128 = 0 ∧ pk.toNat / 32 % 2 = 0 then
                { status := 0x02#8, r := pp }
              else if pk.toNat / 128 = 1 then { status := 0x03#8, detail := 2 }
              else {}] })

/-- The laws of R127: a built request parses back; its ACK reply validates; its NACK reply gives
E_NACK with the payload; any request with its code instead of a reply gives E_MISMATCH(2); any reply
with another command code gives E_MISMATCH(1). -/
def Obligations.FrameModelLaws : Prop :=
  ∀ (s : State) (a b a' b' : BitVec 7) (c c' : BitVec 5) (p r : Bytes),
    knownCommand c = true → knownCommand c' = true →
    ∃ (q ackR nackR other : Bytes) (f : FrameRec),
      exec (.frMkreq a b c) (s.withA p) =
        .next { s.withA p with results := s.results ++ [{ r := q }] } ∧
      exec .frParse (s.withA q) =
        .next { s.withA q with results := s.results ++ [{ r := p, record := .frame f }] } ∧
      f.dest.toNat = a.toNat ∧ f.src.toNat = b.toNat ∧ f.kind = .request ∧ f.cmd = c ∧
      f.known = true ∧
      exec (.frMkrep b a c true) (s.withA r) =
        .next { s.withA r with results := s.results ++ [{ r := ackR }] } ∧
      exec .frValid (s.withAB q ackR) =
        .next { s.withAB q ackR with results := s.results ++ [{}] } ∧
      exec (.frMkrep b a c false) (s.withA r) =
        .next { s.withA r with results := s.results ++ [{ r := nackR }] } ∧
      exec .frValid (s.withAB q nackR) =
        .next { s.withAB q nackR with results := s.results ++ [{ status := 0x02#8, r := r }] } ∧
      exec (.frMkreq a' b' c) (s.withA r) =
        .next { s.withA r with results := s.results ++ [{ r := other }] } ∧
      exec .frValid (s.withAB q other) =
        .next { s.withAB q other with
          results := s.results ++ [{ status := 0x03#8, detail := 2 }] } ∧
      (∀ ack : Bool, ∃ o : Bytes,
        exec (.frMkrep a' b' c' ack) (s.withA r) =
          .next { s.withA r with results := s.results ++ [{ r := o }] } ∧
        (c ≠ c' →
          exec .frValid (s.withAB q o) =
            .next { s.withAB q o with
              results := s.results ++ [{ status := 0x03#8, detail := 1 }] }))

/-- The layers of R66 loop back: what a request is serialized, checksummed and framed to is received
as one frame, verifies, strips and parses to the same header and payload. -/
def Obligations.TransmitThenReceiveIsIdentity : Prop :=
  ∀ (s : State) (dest src : BitVec 7) (cmd : BitVec 5) (p : Bytes),
    configWf s.cfg = true → s.fault = none → s.buf = [] → s.ep = false →
    (∀ k, s.cfg.bufCap = some k → p.length + 5 ≤ k) → knownCommand cmd = true →
    ∃ (F G W : Bytes) (f : FrameRec),
      exec (.frMkreq dest src cmd) (s.withA p) =
        .next { s.withA p with results := s.results ++ [{ r := F }] } ∧
      exec .ckAppend (s.withA F) =
        .next { s.withA F with results := s.results ++ [{ r := G }] } ∧
      exec .frmEnc (s.withA G) =
        .next { s.withA G with results := s.results ++ [{ r := W }] } ∧
      exec .frmFeed (s.withA W) =
        .next { s.withA W with results := s.results ++ [{ frames := [G] }] } ∧
      exec .ckVerify (s.withA G) =
        .next { s.withA G with results := s.results ++ [{ y := .bool true }] } ∧
      exec .ckStrip (s.withA G) =
        .next { s.withA G with results := s.results ++ [{ r := F }] } ∧
      exec .frParse (s.withA F) =
        .next { s.withA F with results := s.results ++ [{ r := p, record := .frame f }] } ∧
      f.dest.toNat = dest.toNat ∧ f.src.toNat = src.toNat ∧ f.cmd = cmd ∧ f.kind = .request

/-! ### 43_fixed_point.md -/

/-- The byte width is the least of 8, 16 and 32 that holds t = IB + FB + S bits; t = 0 gives 8 with
the single value 0; above 32 there is none, and Q_ENC and Q_DEC raise E_FORMAT(0) (R130). -/
def Obligations.QFormatWidth : Prop :=
  ∀ (f : QFormat) (s : State),
    let t := f.ib.toNat + f.fb.toNat + (if f.signed then 1 else 0)
    (hasWidth f = true ↔ t ≤ 32) ∧
    (t ≤ 32 → qWidth f ∈ [8, 16, 32] ∧ t ≤ qWidth f ∧ ∀ w ∈ [8, 16, 32], t ≤ w → qWidth f ≤ w) ∧
    (t = 0 → qWidth f = 8 ∧ qLo f = 0 ∧ qHi f = 0) ∧
    (32 < t →
      exec (.qEnc f) s = .next { s with results := s.results ++ [{ status := 0x07#8 }] } ∧
      exec (.qDec f) s = .next { s with results := s.results ++ [{ status := 0x07#8 }] })

/-- When t = W, lo and hi are the least and the greatest value Q_DEC returns (R132). -/
def Obligations.QRangeIsRepresentableRange : Prop :=
  ∀ f : QFormat, hasWidth f = true → sigWidth f = qWidth f →
    (∀ raw < 2 ^ qWidth f, qLo f ≤ qValue f raw ∧ qValue f raw ≤ qHi f) ∧
    (∃ raw < 2 ^ qWidth f, qValue f raw = qLo f) ∧ (∃ raw < 2 ^ qWidth f, qValue f raw = qHi f)

/-- Q_ENC of a finite value: clamp to [lo, hi], scale by 2^FB, truncate toward zero, and take the
W-bit two's complement; the integer stays in the raw range and the pattern in W bits (R134).
Truncation is given without the model's `trunc`: the one integer no farther from 0 than y·2^FB and
less than 1 away from it. -/
def Obligations.QEncOfFinite : Prop :=
  ∀ (s : State) (f : QFormat) (x : Rat), hasWidth f = true →
    real64 s.port.x.f64 = .finite x →
    ∃ (r : Int) (y : Nat),
      exec (.qEnc f) s =
        .next { s with
          results := s.results ++
            [{ y := .int y, range := decide (x < qLo f ∨ qHi f < x) }] } ∧
      r = trunc (min (max x (qLo f)) (qHi f) * 2 ^ f.fb.toNat) ∧
      |(r : Rat)| ≤ |min (max x (qLo f)) (qHi f) * 2 ^ f.fb.toNat| ∧
      |min (max x (qLo f)) (qHi f) * 2 ^ f.fb.toNat - r| < 1 ∧
      qLo f * 2 ^ f.fb.toNat ≤ (r : Rat) ∧ (r : Rat) ≤ qHi f * 2 ^ f.fb.toNat ∧
      y < 2 ^ qWidth f ∧
      (y : Int) = (if r < 0 then r + 2 ^ qWidth f else r)

/-- Q_ENC of NaN raises E_NAN(0), and infinities saturate at the ends of the raw range with RANGE
set (R134). -/
def Obligations.QEncOfNonFinite : Prop :=
  ∀ (s : State) (f : QFormat), hasWidth f = true →
    (real64 s.port.x.f64 = .nan →
      exec (.qEnc f) s = .next { s with results := s.results ++ [{ status := 0x08#8 }] }) ∧
    (real64 s.port.x.f64 = .inf false →
      exec (.qEnc f) s =
        .next { s with
          results := s.results ++
            [{ y := .int (2 ^ (f.ib.toNat + f.fb.toNat) - 1), range := true }] }) ∧
    (real64 s.port.x.f64 = .inf true →
      exec (.qEnc f) s =
        .next { s with
          results := s.results ++
            [{ y := .int (if f.signed then 2 ^ qWidth f - 2 ^ (f.ib.toNat + f.fb.toNat) else 0),
               range := true }] })

/-- Q_DEC: every W-bit pattern decodes, the top bit of the width read as the sign in a signed
format; a raw value of more than W bits raises E_OPERAND(0) (R135). -/
def Obligations.QDecOfPattern : Prop :=
  ∀ (s : State) (f : QFormat), hasWidth f = true →
    let raw := s.port.x.u32.toNat
    (2 ^ qWidth f ≤ raw →
      exec (.qDec f) s = .next { s with results := s.results ++ [{ status := 0x09#8 }] }) ∧
    (raw < 2 ^ qWidth f →
      exec (.qDec f) s =
        .next { s with
          results := s.results ++
            [{ y := .rat
                (((if f.signed = true ∧ 2 ^ (qWidth f - 1) ≤ raw then (raw : Int) - 2 ^ qWidth f
                    else raw : Int) : Rat) / 2 ^ f.fb.toNat) }] })

/-- The round trip of R136: a value in range comes back truncated to a multiple of 2^-FB, toward zero
and within 2^-FB, exactly when it is such a multiple; a value out of range comes back as lo or hi. -/
def Obligations.QRoundTrip : Prop :=
  ∀ (s : State) (f : QFormat) (x : Rat), hasWidth f = true →
    real64 s.port.x.f64 = .finite x →
    ∃ (raw : BitVec 32) (g : Bool) (v : Rat),
      exec (.qEnc f) s =
        .next { s with results := s.results ++ [{ y := .int raw.toNat, range := g }] } ∧
      exec (.qDec f) (s.withU32 raw) =
        .next { s.withU32 raw with results := s.results ++ [{ y := .rat v }] } ∧
      (qLo f ≤ x → x ≤ qHi f →
        v = (trunc (x * 2 ^ f.fb.toNat) : Rat) / 2 ^ f.fb.toNat ∧
        (∃ n : Int, v * 2 ^ f.fb.toNat = n) ∧ |v| ≤ |x| ∧
        |x - v| < 1 / 2 ^ f.fb.toNat ∧
        (x = v ↔ ∃ n : Int, x * 2 ^ f.fb.toNat = n)) ∧
      (x < qLo f → v = qLo f) ∧ (qHi f < x → v = qHi f)

/-- Every value Q_DEC returns is the value of some binary64 pattern (R137; the layout of binary64 is
PRESUMED, log 13). -/
def Obligations.QDecValuesAreBinary64 : Prop :=
  ∀ (f : QFormat) (raw : Nat), hasWidth f = true → raw < 2 ^ qWidth f →
    ∃ x : F64, real64 x = .finite (qValue f raw)

/-- For a signed descriptor with t = W, the two's-complement map is a bijection between
[-2^(W-1), 2^(W-1)) and [0, 2^W) (R138). -/
def Obligations.TwosComplementBijection : Prop :=
  ∀ f : QFormat, hasWidth f = true → f.signed = true → sigWidth f = qWidth f →
    (∀ r : Int, -2 ^ (qWidth f - 1) ≤ r → r < 2 ^ (qWidth f - 1) →
      ∃ n : Nat, toPattern (qWidth f) r = n ∧ n < 2 ^ qWidth f ∧ fromPattern f n = r) ∧
    (∀ n : Nat, n < 2 ^ qWidth f →
      -2 ^ (qWidth f - 1) ≤ fromPattern f n ∧ fromPattern f n < 2 ^ (qWidth f - 1) ∧
      toPattern (qWidth f) (fromPattern f n) = n)

/-- The named formats: the operation words decode to the descriptors, with the byte width and the
range of the table (R133). -/
def Obligations.NamedFormats : Prop :=
  ∀ e ∈ ([(0x0808, uq8x8, 16, 0, 255.99609375), (0x1010, uq16x16, 32, 0, 65535.9999847412109375),
      (0x1808, uq24x8, 32, 0, 16777215.99609375),
      (0x10D12, q14x18, 32, -8192, 8191.999996185302734375),
      (0x10916, q10x22, 32, -512, 511.9999997615814208984375),
      (0x11708, q24x8, 32, -8388608, 8388607.99609375),
      (0x1130C, q20x12, 32, -524288, 524287.999755859375),
      (0x10D02, q14x2, 16, -8192, 8191.75),
      (0x11F00, i32, 32, -2147483648, 2147483647)] : List (Nat × QFormat × Nat × Rat × Rat)),
    decode (BitVec.ofNat 32 (0x20000000 + e.1)) = .ok (.qEnc e.2.1) ∧
    decode (BitVec.ofNat 32 (0x21000000 + e.1)) = .ok (.qDec e.2.1) ∧
    hasWidth e.2.1 = true ∧ qWidth e.2.1 = e.2.2.1 ∧
    qLo e.2.1 = e.2.2.2.1 ∧ qHi e.2.1 = e.2.2.2.2

/-- LE_PUT writes the n bytes of the value, byte k holding (v >> 8k) & 0xFF; a value that does not
fit n bytes raises E_OPERAND(0) (R139). -/
def Obligations.LePutWritesLittleEndian : Prop :=
  ∀ (s : State) (n : FieldWidth),
    let v := s.port.x.u32.toNat
    (2 ^ (8 * n.bytes) ≤ v →
      exec (.lePut n) s = .next { s with results := s.results ++ [{ status := 0x09#8 }] }) ∧
    (v < 2 ^ (8 * n.bytes) → ∃ p : Bytes,
      exec (.lePut n) s = .next { s with results := s.results ++ [{ r := p }] } ∧
      p.length = n.bytes ∧
      ∀ k < n.bytes, p[k]? = some (BitVec.ofNat 8 (v / 2 ^ (8 * k))))

/-- LE_GET reads the n bytes at the offset as an unsigned little-endian number; a field past the end
of A raises E_LENGTH(0) (R140; 20_memory.md R40). -/
def Obligations.LeGetReadsLittleEndian : Prop :=
  ∀ (s : State) (n : FieldWidth) (ofs : BitVec 16),
    (s.port.a.length < ofs.toNat + n.bytes →
      exec (.leGet n ofs) s = .next { s with results := s.results ++ [{ status := 0x04#8 }] }) ∧
    (ofs.toNat + n.bytes ≤ s.port.a.length → ∃ v : Nat,
      exec (.leGet n ofs) s = .next { s with results := s.results ++ [{ y := .int v }] } ∧
      v < 2 ^ (8 * n.bytes) ∧
      ∀ k < n.bytes, s.port.a[ofs.toNat + k]? = some (BitVec.ofNat 8 (v / 2 ^ (8 * k))))

/-- LE_GET reads back what LE_PUT wrote, alone or inside a longer string (R141). -/
def Obligations.LeGetReadsBackLePut : Prop :=
  ∀ (s : State) (n : FieldWidth) (ofs : BitVec 16) (pre post : Bytes),
    s.port.x.u32.toNat < 2 ^ (8 * n.bytes) → pre.length = ofs.toNat →
    ∃ p : Bytes,
      exec (.lePut n) s = .next { s with results := s.results ++ [{ r := p }] } ∧
      exec (.leGet n ofs) (s.withA (pre ++ p ++ post)) =
        .next { s.withA (pre ++ p ++ post) with
          results := s.results ++ [{ y := .int s.port.x.u32.toNat }] }

/-! ### 44_telemetry.md -/

/-- TM_DEC of a block of a well-formed configuration, from a string of at least its length: one
entry per field in layout order, its raw little-endian value beside its decoded value, and no
decoded value for a SETPOINT (R143, R146). -/
def Obligations.TmDecReadsLayout : Prop :=
  ∀ (s : State) (b : BlockDesc), configWf s.cfg = true → b ∈ tmBlocks s.cfg →
    b.len ≤ s.port.a.length →
    exec (.tmDec b.id) s =
      .next { s with
        results := s.results ++
          [{ record := .block b.name (b.fields.map (fun f =>
              let raw := leVal ((s.port.a.drop f.ofs).take f.width.bytes)
              { name := f.name
                raw := raw
                value := match f.kind with
                  | .q fmt => some (qValue fmt raw)
                  | .setpoint => none })) }] }

/-- TM_DEC's errors and their order: a set must-be-zero bit gives E_ILLEGAL_OP whatever the
selector and the string, an identifier of no block E_UNKNOWN_BLOCK whatever the string, a known one
with a short string E_LENGTH (R147). -/
def Obligations.TmDecErrorOrder : Prop :=
  ∀ (s : State) (sel : Byte), configWf s.cfg = true →
    (∀ z : Nat, 0 < z → z < 2 ^ 16 →
      runWord (BitVec.ofNat 32 (0x40000000 + 256 * z + sel.toNat)) s =
        .next { s with results := s.results ++ [{ status := 0x06#8 }] }) ∧
    ((∀ b ∈ tmBlocks s.cfg, b.id ≠ sel) →
      exec (.tmDec sel) s = .next { s with results := s.results ++ [{ status := 0x05#8 }] }) ∧
    (∀ b ∈ tmBlocks s.cfg, b.id = sel → s.port.a.length < b.len →
      exec (.tmDec sel) s = .next { s with results := s.results ++ [{ status := 0x04#8 }] })

/-- The prefix law (R148): the result of TM_DEC on s ++ t is its result on s, and on s[0..L). -/
def Obligations.TmDecPrefixLaw : Prop :=
  ∀ (s : State) (b : BlockDesc) (x t : Bytes), configWf s.cfg = true → b ∈ tmBlocks s.cfg →
    b.len ≤ x.length → ∃ r : Result, r.status = 0x00#8 ∧
      exec (.tmDec b.id) (s.withA x) =
        .next { s.withA x with results := s.results ++ [r] } ∧
      exec (.tmDec b.id) (s.withA (x ++ t)) =
        .next { s.withA (x ++ t) with results := s.results ++ [r] } ∧
      exec (.tmDec b.id) (s.withA (x.take b.len)) =
        .next { s.withA (x.take b.len) with results := s.results ++ [r] }

/-- SP_PROJ: the raw setpoint as a signed 32-bit number over 2^18 for SPEED and CURRENT, over 2^22
for TORQUE, as it stands for PWM; any other mode code raises E_MODE(0) (R144, R145). -/
def Obligations.SpProjByMode : Prop :=
  ∀ (s : State) (sel : Byte), configWf s.cfg = true →
    let v : Rat := (s.port.x.u32.toInt : Rat)
    let c := s.cfg
    (sel = 0x02#8 ∨ sel = c.modeCurrent →
      exec (.spProj sel) s = .next { s with results := s.results ++ [{ y := .rat (v / 2 ^ 18) }] }) ∧
    (sel = c.modeTorque →
      exec (.spProj sel) s = .next { s with results := s.results ++ [{ y := .rat (v / 2 ^ 22) }] }) ∧
    (sel = c.modePwm →
      exec (.spProj sel) s = .next { s with results := s.results ++ [{ y := .rat v }] }) ∧
    (sel ∉ [0x02#8, c.modeCurrent, c.modeTorque, c.modePwm] →
      exec (.spProj sel) s = .next { s with results := s.results ++ [{ status := 0x0B#8 }] })

/-- A setpoint travels through an APP-CMD payload (30_encoding.md R71): encoded in its mode's format,
written little-endian behind the mode byte, read back at offset 1 and projected by SP_PROJ, a value
in range comes back as a multiple of 2^-FB, no farther from 0 and within 2^-FB of it, and exactly
when it is such a multiple. -/
def Obligations.SetpointTravelsThroughAppCmd : Prop :=
  ∀ (s : State) (sel : Byte) (f : QFormat) (x : Rat), configWf s.cfg = true →
    ((sel = 0x02#8 ∨ sel = s.cfg.modeCurrent) ∧ f = ⟨true, 13, 18⟩ ∨
      sel = s.cfg.modeTorque ∧ f = ⟨true, 9, 22⟩ ∨ sel = s.cfg.modePwm ∧ f = ⟨true, 31, 0⟩) →
    real64 s.port.x.f64 = .finite x → qLo f ≤ x → x ≤ qHi f →
    ∃ (raw : BitVec 32) (p : Bytes) (v : Rat),
      exec (.qEnc f) s = .next { s with results := s.results ++ [{ y := .int raw.toNat }] } ∧
      exec (.lePut .w4) (s.withU32 raw) =
        .next { s.withU32 raw with results := s.results ++ [{ r := p }] } ∧
      exec (.leGet .w4 1) (s.withA (sel :: p)) =
        .next { s.withA (sel :: p) with results := s.results ++ [{ y := .int raw.toNat }] } ∧
      exec (.spProj sel) (s.withU32 raw) =
        .next { s.withU32 raw with results := s.results ++ [{ y := .rat v }] } ∧
      (∃ n : Int, v * 2 ^ f.fb.toNat = n) ∧ |v| ≤ |x| ∧
      |x - v| < 1 / 2 ^ f.fb.toNat ∧ (x = v ↔ ∃ n : Int, x * 2 ^ f.fb.toNat = n)

/-! ### 30_encoding.md, Part B -/

/-- The payload shapes (R69; 20_memory.md R35): a request built from a command's payload parses back
to that command and payload, and LE_GET reads each numeric field at its offset; the fields lie end to
end and fill the payload (a TRIP-LCL payload has no stated shape). -/
def Obligations.RequestPayloadFieldsReadBack : Prop :=
  ∀ (s : State) (dest src : BitVec 7) (q : CommandRequest),
    (∃ (r : Bytes) (f : FrameRec),
      exec (.frMkreq dest src q.command.code) (s.withA q.payload) =
        .next { s.withA q.payload with results := s.results ++ [{ r := r }] } ∧
      exec .frParse (s.withA r) =
        .next { s.withA r with results := s.results ++ [{ r := q.payload, record := .frame f }] } ∧
      f.cmd = q.command.code ∧ f.known = true ∧ f.kind = .request) ∧
    (∀ e ∈ q.fields, exec (.leGet e.1 e.2.1) (s.withA q.payload) =
      .next { s.withA q.payload with results := s.results ++ [{ y := .int e.2.2 }] }) ∧
    (q.command ≠ .tripLcl → q.payload.length = (q.fields.map (fun e => e.1.bytes)).sum) ∧
    q.fields.Pairwise (fun e e' => e.2.1.toNat + e.1.bytes ≤ e'.2.1.toNat)

/-- An APP-TM exchange (R69; 44_telemetry.md R143): a positive reply whose payload has the length of
the block asked for validates against the request, parses to that payload, and TM_DEC decodes it. -/
def Obligations.AppTmReplyDecodes : Prop :=
  ∀ (s : State) (dest src : BitVec 7) (id : Byte) (p : Bytes), configWf s.cfg = true →
    replyShape s.cfg (.appTm id) p = true →
    ∃ (q r : Bytes) (f : FrameRec) (b : BlockDesc) (vs : List FieldVal),
      exec (.frMkreq dest src Command.appTm.code) (s.withA [id]) =
        .next { s.withA [id] with results := s.results ++ [{ r := q }] } ∧
      exec (.frMkrep src dest Command.appTm.code true) (s.withA p) =
        .next { s.withA p with results := s.results ++ [{ r := r }] } ∧
      exec .frValid (s.withAB q r) = .next { s.withAB q r with results := s.results ++ [{}] } ∧
      exec .frParse (s.withA r) =
        .next { s.withA r with results := s.results ++ [{ r := p, record := .frame f }] } ∧
      f.kind = .ack ∧ b ∈ tmBlocks s.cfg ∧ b.id = id ∧
      exec (.tmDec id) (s.withA p) =
        .next { s.withA p with results := s.results ++ [{ record := .block b.name vs }] } ∧
      vs.map (·.name) = b.fields.map (·.name)

/-! ### 10_state.md, 20_memory.md, 60_exceptions.md, 70_reset_and_hazards.md -/

/-- Every operation but FRM_FEED and FRM_RST is a function of its word, its operands and the
configuration: in every state it answers the one result these fix, and changes nothing else
(10_state.md R23; 20_memory.md R42). -/
def Obligations.StatelessOperationsReturnFixedResult : Prop :=
  ∀ (i : Instr), i ≠ .frmFeed → i ≠ .frmRst → ∀ (c : Config) (p : Operands), ∃ r : Result,
    ∀ s : State, s.cfg = c → s.port = p →
      exec i s = .next { s with results := s.results ++ [r] }

/-- No operation writes the configuration, the operands or the queue; BUF and EP are written by
FRM_FEED and FRM_RST only; FAULT by FRM_FEED only, and never cleared (10_state.md R21, R22, R27). -/
def Obligations.OnlyFramerWritesState : Prop :=
  ∀ (i : Instr) (s t : State), exec i s = .next t →
    t.cfg = s.cfg ∧ t.port = s.port ∧ t.pending = s.pending ∧
    (s.fault ≠ none → t.fault = s.fault) ∧
    (i ≠ .frmFeed → t.fault = s.fault) ∧
    (i ≠ .frmFeed → i ≠ .frmRst → t.buf = s.buf ∧ t.ep = s.ep)

/-- Errors are precise (60_exceptions.md R152): an operation, legal word or not, that returns a
status other than 0x00 has changed nothing but the list of results, and its record holds no more
than the status, the detail and, for E_NACK, R; FRM_FEED and FRM_RST return no error but
E_ILLEGAL_OP. -/
def Obligations.ErrorsArePrecise : Prop :=
  ∀ (w : OpWord) (s t : State) (r : Result),
    runWord w s = .next t → t.results = s.results ++ [r] → r.status ≠ 0x00#8 →
    t = { s with results := s.results ++ [r] } ∧
    r.y = .int 0 ∧ r.range = false ∧ r.frames = [] ∧ r.record = .empty ∧
    (r.status = 0x02#8 ∨ r.r = []) ∧
    (w.extractLsb' 24 8 = 0x02#8 ∨ w.extractLsb' 24 8 = 0x03#8 → r.status = 0x06#8)

/-- Every step keeps the machine's invariant: the configuration stays well formed, BUF within
P_BUF_CAP, FAULT clear unless P_BUF_CAP is finite, and every result record sound. -/
def Obligations.StepKeepsInvariant : Prop :=
  ∀ s t : State, s.Inv → step s = .next t → t.Inv

/-- A block powered on with any well-formed configuration satisfies the invariant, and so does the
reset state (the configuration of State.reset is the model's choice, log 1). -/
def Obligations.PowerOnSatisfiesInvariant : Prop :=
  (∀ c : Config, configWf c = true → (State.powerOn c).Inv) ∧ State.reset.Inv

/-- Power-on leaves BUF empty, EP 0 and FAULT clear for every configuration, which it keeps, and the
block then waits for its first operation; State.reset leaves the three the same way
(10_state.md R29; 70_reset_and_hazards.md R161; the configuration of State.reset is log 1, and that a
waiting block's step answers the same state is log 5). -/
def Obligations.ResetStateOfDecoder : Prop :=
  (∀ c : Config, (State.powerOn c).buf = [] ∧ (State.powerOn c).ep = false ∧
    (State.powerOn c).fault = none ∧ (State.powerOn c).cfg = c ∧
    (configWf c = true → step (State.powerOn c) = .next (State.powerOn c))) ∧
  State.reset.buf = [] ∧ State.reset.ep = false ∧ State.reset.fault = none

/-- A configuration is well formed exactly when it meets R28 with R142, spelled out: framer octets,
block identifiers and mode codes pairwise distinct; in each block, field names unique, every field
inside the block, a descriptor's W equal to 8n and a SETPOINT of 4 bytes; and the five named blocks
have their fixed lengths. A configuration that is not well formed is refused, and nothing else is
(60_exceptions.md R160). That every step at every state refuses it, and not only the first, is the
model's reading (log 10), as is that W = 8n is part of R28 (log 11). -/
def Obligations.RefusesExactlyIllFormedConfigurations : Prop :=
  ∀ s : State,
    let c := s.cfg
    ((∃ r, step s = .refused r) ↔ configWf c = false) ∧
    (configWf c = true ↔
      [c.flag, c.esc, c.escFlag, c.escEsc].Pairwise (· ≠ ·) ∧
      (tmBlocks c).Pairwise (fun b b' => b.id ≠ b'.id) ∧
      [0x02#8, c.modeCurrent, c.modeTorque, c.modePwm].Pairwise (· ≠ ·) ∧
      ∀ b ∈ tmBlocks c,
        b.fields.Pairwise (fun f f' => f.name ≠ f'.name) ∧
        ∀ f ∈ b.fields, f.ofs + f.width.bytes ≤ b.len ∧
          (∀ q, f.kind = .q q →
            q.ib.toNat + q.fb.toNat + (if q.signed then 1 else 0) ≤ 32 ∧
            qWidth q = 8 * f.width.bytes) ∧
          (f.kind = .setpoint → f.width.bytes = 4)) ∧
    (tmBlocks c).map (fun b => (b.name, b.len)) =
      [(.standard, 25), (.temp, 8), (.volt, 24), (.curr, 24), (.diagGeneral, 20)] ++
        c.tmExtra.map (fun e => (.extra e.name, e.len))

/-- A state with FAULT set has no further step, and a step stops with a fault only there
(60_exceptions.md R159; that the stop is a fault answered at the marked state is log 8). -/
def Obligations.FaultedStateHasNoStep : Prop :=
  ∀ s : State, configWf s.cfg = true →
    ∀ f : Fault, s.fault = some f ↔ step s = .fault f

/-- A run of the host's operations ends in one of two ways (70_reset_and_hazards.md R164): every
operation has returned one result and the state is final, or FRM_FEED overflowed a finite
P_BUF_CAP and the marked state has no further step (the form of that stop is log 8). The
configuration is kept and earlier results stay. -/
def Obligations.ProgramEndsFinalOrFaulted : Prop :=
  ∀ s : State, configWf s.cfg = true → s.fault = none →
    (∃ (t : State) (rs : List Result),
      runSteps s.pending.length s = .next t ∧ t.final ∧ t.cfg = s.cfg ∧
      t.results = s.results ++ rs ∧ rs.length = s.pending.length) ∨
    (s.cfg.bufCap ≠ none ∧ ∃ (k : Nat) (t : State) (rs : List Result),
      k < s.pending.length ∧ runSteps (k + 1) s = .next t ∧ t.fault = some .overflow ∧
      step t = .fault .overflow ∧ t.results = s.results ++ rs ∧ rs.length = k)

/-- RANGE is 1 only from Q_ENC, and there exactly when the input lay outside [lo, hi]
(10_state.md R26). -/
def Obligations.RangeOnlyFromClampingQEnc : Prop :=
  ∀ (i : Instr) (s t : State) (r : Result),
    exec i s = .next t → t.results = s.results ++ [r] →
    (r.range = true ↔ ∃ f : QFormat, i = .qEnc f ∧ hasWidth f = true ∧
      ((∃ neg, real64 s.port.x.f64 = .inf neg) ∨
        ∃ x, real64 s.port.x.f64 = .finite x ∧ (x < qLo f ∨ qHi f < x)))
end

