-- ==== Sys2Proof/Laws/State.lean ====
section
/-! SUPPORT. One lemma per field per update of State, so that no proof unfolds a record update. -/

namespace Sys2Proof.Machine

variable (s : State)

/-! ### `State.ret` -/

@[simp] theorem State.ret_buf (r : Result) : (s.ret r).buf = s.buf := rfl
@[simp] theorem State.ret_ep (r : Result) : (s.ret r).ep = s.ep := rfl
@[simp] theorem State.ret_fault (r : Result) : (s.ret r).fault = s.fault := rfl
@[simp] theorem State.ret_cfg (r : Result) : (s.ret r).cfg = s.cfg := rfl
@[simp] theorem State.ret_port (r : Result) : (s.ret r).port = s.port := rfl
@[simp] theorem State.ret_pending (r : Result) : (s.ret r).pending = s.pending := rfl
@[simp] theorem State.ret_results (r : Result) : (s.ret r).results = s.results ++ [r] := rfl

/-! ### `State.raise` -/

@[simp] theorem State.raise_buf (e : Status) (d : Byte) : (s.raise e d).buf = s.buf := rfl
@[simp] theorem State.raise_ep (e : Status) (d : Byte) : (s.raise e d).ep = s.ep := rfl
@[simp] theorem State.raise_fault (e : Status) (d : Byte) : (s.raise e d).fault = s.fault := rfl
@[simp] theorem State.raise_cfg (e : Status) (d : Byte) : (s.raise e d).cfg = s.cfg := rfl
@[simp] theorem State.raise_port (e : Status) (d : Byte) : (s.raise e d).port = s.port := rfl
@[simp] theorem State.raise_pending (e : Status) (d : Byte) : (s.raise e d).pending = s.pending := rfl
@[simp] theorem State.raise_results (e : Status) (d : Byte) : (s.raise e d).results = s.results ++ [errorResult e d] := rfl

/-! ### `State.issue` -/

@[simp] theorem State.issue_buf (q : Request) (rest : List Request) : (s.issue q rest).buf = s.buf := rfl
@[simp] theorem State.issue_ep (q : Request) (rest : List Request) : (s.issue q rest).ep = s.ep := rfl
@[simp] theorem State.issue_fault (q : Request) (rest : List Request) : (s.issue q rest).fault = s.fault := rfl
@[simp] theorem State.issue_cfg (q : Request) (rest : List Request) : (s.issue q rest).cfg = s.cfg := rfl
@[simp] theorem State.issue_port (q : Request) (rest : List Request) : (s.issue q rest).port = q.args := rfl
@[simp] theorem State.issue_pending (q : Request) (rest : List Request) : (s.issue q rest).pending = rest := rfl
@[simp] theorem State.issue_results (q : Request) (rest : List Request) : (s.issue q rest).results = s.results := rfl

/-! ### `State.withDecoder` -/

@[simp] theorem State.withDecoder_buf (d : Decoder) : (s.withDecoder d).buf = d.buf := rfl
@[simp] theorem State.withDecoder_ep (d : Decoder) : (s.withDecoder d).ep = d.ep := rfl
@[simp] theorem State.withDecoder_fault (d : Decoder) : (s.withDecoder d).fault = d.fault := rfl
@[simp] theorem State.withDecoder_cfg (d : Decoder) : (s.withDecoder d).cfg = s.cfg := rfl
@[simp] theorem State.withDecoder_port (d : Decoder) : (s.withDecoder d).port = s.port := rfl
@[simp] theorem State.withDecoder_pending (d : Decoder) : (s.withDecoder d).pending = s.pending := rfl
@[simp] theorem State.withDecoder_results (d : Decoder) : (s.withDecoder d).results = s.results := rfl

/-! ### `State.withA` -/

@[simp] theorem State.withA_buf (a : Bytes) : (s.withA a).buf = s.buf := rfl
@[simp] theorem State.withA_ep (a : Bytes) : (s.withA a).ep = s.ep := rfl
@[simp] theorem State.withA_fault (a : Bytes) : (s.withA a).fault = s.fault := rfl
@[simp] theorem State.withA_cfg (a : Bytes) : (s.withA a).cfg = s.cfg := rfl
@[simp] theorem State.withA_port (a : Bytes) : (s.withA a).port = { s.port with a := a } := rfl
@[simp] theorem State.withA_pending (a : Bytes) : (s.withA a).pending = s.pending := rfl
@[simp] theorem State.withA_results (a : Bytes) : (s.withA a).results = s.results := rfl

/-! ### `State.withAB` -/

@[simp] theorem State.withAB_buf (a b : Bytes) : (s.withAB a b).buf = s.buf := rfl
@[simp] theorem State.withAB_ep (a b : Bytes) : (s.withAB a b).ep = s.ep := rfl
@[simp] theorem State.withAB_fault (a b : Bytes) : (s.withAB a b).fault = s.fault := rfl
@[simp] theorem State.withAB_cfg (a b : Bytes) : (s.withAB a b).cfg = s.cfg := rfl
@[simp] theorem State.withAB_port (a b : Bytes) : (s.withAB a b).port = { s.port with a := a, b := b } := rfl
@[simp] theorem State.withAB_pending (a b : Bytes) : (s.withAB a b).pending = s.pending := rfl
@[simp] theorem State.withAB_results (a b : Bytes) : (s.withAB a b).results = s.results := rfl

/-! ### `State.withU32` -/

@[simp] theorem State.withU32_buf (x : BitVec 32) : (s.withU32 x).buf = s.buf := rfl
@[simp] theorem State.withU32_ep (x : BitVec 32) : (s.withU32 x).ep = s.ep := rfl
@[simp] theorem State.withU32_fault (x : BitVec 32) : (s.withU32 x).fault = s.fault := rfl
@[simp] theorem State.withU32_cfg (x : BitVec 32) : (s.withU32 x).cfg = s.cfg := rfl
@[simp] theorem State.withU32_port (x : BitVec 32) : (s.withU32 x).port = { s.port with x := { s.port.x with u32 := x } } := rfl
@[simp] theorem State.withU32_pending (x : BitVec 32) : (s.withU32 x).pending = s.pending := rfl
@[simp] theorem State.withU32_results (x : BitVec 32) : (s.withU32 x).results = s.results := rfl

/-! ### Decoder, power-on and operand records -/

@[simp] theorem State.decoder_buf : s.decoder.buf = s.buf := rfl
@[simp] theorem State.decoder_ep : s.decoder.ep = s.ep := rfl
@[simp] theorem State.decoder_fault : s.decoder.fault = s.fault := rfl
@[simp] theorem State.decoder_frames : s.decoder.frames = [] := rfl
@[simp] theorem State.powerOn_buf (c : Config) : (State.powerOn c).buf = [] := rfl
@[simp] theorem State.powerOn_ep (c : Config) : (State.powerOn c).ep = false := rfl
@[simp] theorem State.powerOn_fault (c : Config) : (State.powerOn c).fault = none := rfl
@[simp] theorem State.powerOn_cfg (c : Config) : (State.powerOn c).cfg = c := rfl
@[simp] theorem State.powerOn_port (c : Config) : (State.powerOn c).port = Operands.idle := rfl
@[simp] theorem State.powerOn_pending (c : Config) : (State.powerOn c).pending = [] := rfl
@[simp] theorem State.powerOn_results (c : Config) : (State.powerOn c).results = [] := rfl

/-! ### Updates of an unchanged state -/

/-- Writing back the decoder's own BUF, EP and FAULT changes nothing. -/
@[simp] theorem State.withDecoder_decoder : s.withDecoder s.decoder = s := rfl

/-- Raising an error is returning its record. -/
theorem State.raise_eq_ret (e : Status) (d : Byte) : s.raise e d = s.ret (errorResult e d) := rfl

end Sys2Proof.Machine
end

