-- ==== Sys2Proof/Laws/Framer.lean ====
section
/-! SUPPORT. What the framer's shared operations do: `app`, the byte step, `feed`, and the escape
map against the decoder (40_framer.md). -/

namespace Sys2Proof.Machine

variable {c : Config} {d : Decoder}

/-! ### The capacity and `app` -/

theorem fitsCap_iff {n : Nat} : fitsCap c n = true ↔ ∀ k, c.bufCap = some k → n ≤ k := by
  unfold fitsCap
  split <;> simp_all

theorem fitsCap_mono {m n : Nat} (h : m ≤ n) (hn : fitsCap c n = true) : fitsCap c m = true := by
  rw [fitsCap_iff] at *
  exact fun k hk => h.trans (hn k hk)

theorem fitsCap_of_none {n : Nat} (h : c.bufCap = none) : fitsCap c n = true := by
  simp [fitsCap, h]

/-- `app` appends where the string fits, and sets the mark where it does not. -/
theorem app_cases (str : Bytes) :
    (fitsCap c (d.buf.length + str.length) = true ∧
      app c d str = { d with buf := d.buf ++ str }) ∨
    (fitsCap c (d.buf.length + str.length) = false ∧
      app c d str = { d with fault := some .overflow }) := by
  unfold app
  split <;> simp_all

theorem app_of_fits {str : Bytes} (h : fitsCap c (d.buf.length + str.length) = true) :
    app c d str = { d with buf := d.buf ++ str } := by
  simp [app, h]

@[simp] theorem app_frames (str : Bytes) : (app c d str).frames = d.frames := by
  unfold app; split <;> rfl

@[simp] theorem app_ep (str : Bytes) : (app c d str).ep = d.ep := by
  unfold app; split <;> rfl

/-! ### The byte step -/

/-- Everything a byte step can do: nothing after an overflow, one `app`, one non-empty frame
emitted, nothing at a delimiter with BUF empty, or a pending escape. -/
theorem byteStep_cases (c : Config) (d : Decoder) (b : Byte) :
    (d.fault.isSome = true ∧ byteStep c d b = d) ∨
    (d.fault = none ∧ ∃ str, byteStep c d b = app c { d with ep := false } str) ∨
    (d.fault = none ∧ d.ep = false ∧ d.buf ≠ [] ∧
      byteStep c d b = { d with buf := [], frames := d.frames ++ [d.buf] }) ∨
    (d.fault = none ∧ d.ep = false ∧ d.buf = [] ∧ byteStep c d b = d) ∨
    (d.fault = none ∧ d.ep = false ∧ byteStep c d b = { d with ep := true }) := by
  obtain ⟨buf, ep, fault, frames⟩ := d
  cases fault with
  | some f => exact .inl ⟨rfl, rfl⟩
  | none =>
    cases ep with
    | true =>
      refine .inr (.inl ⟨rfl, ?_⟩)
      unfold byteStep
      simp only [Option.isSome_none, Bool.false_eq_true, if_false, if_true]
      split
      · exact ⟨_, rfl⟩
      · split <;> exact ⟨_, rfl⟩
    | false =>
      by_cases hf : b = c.flag
      · cases buf with
        | nil => exact .inr (.inr (.inr (.inl ⟨rfl, rfl, rfl, by simp [byteStep, hf]⟩)))
        | cons x xs =>
          exact .inr (.inr (.inl ⟨rfl, rfl, by simp, by simp [byteStep, hf]⟩))
      · by_cases he : b = c.esc
        · exact .inr (.inr (.inr (.inr ⟨rfl, rfl, by simp [byteStep, he, he ▸ hf]⟩)))
        · exact .inr (.inl ⟨rfl, [b], by simp [byteStep, hf, he]⟩)

/-- The frames emitted before a byte step pass through it. -/
theorem byteStep_frames_append (g : List Bytes) (b : Byte) :
    byteStep c { d with frames := g ++ d.frames } b =
      { byteStep c d b with frames := g ++ (byteStep c d b).frames } := by
  unfold byteStep app
  repeat' split
  all_goals simp_all

/-! ### Feeding a chunk -/

@[simp] theorem feed_nil : feed c d [] = d := rfl

@[simp] theorem feed_cons (b : Byte) (x : Bytes) :
    feed c d (b :: x) = feed c (byteStep c d b) x := rfl

theorem feed_append (x y : Bytes) : feed c d (x ++ y) = feed c (feed c d x) y :=
  List.foldl_append

/-- After an overflow no byte is consumed. -/
theorem feed_of_fault (h : d.fault.isSome = true) (x : Bytes) : feed c d x = d := by
  induction x with
  | nil => rfl
  | cons b x ih =>
    have : byteStep c d b = d := by simp [byteStep, h]
    rw [feed_cons, this, ih]

/-- The frames emitted before a chunk pass through it. -/
theorem feed_frames_append (g : List Bytes) (x : Bytes) :
    feed c { d with frames := g ++ d.frames } x =
      { feed c d x with frames := g ++ (feed c d x).frames } := by
  induction x generalizing d with
  | nil => rfl
  | cons b x ih => rw [feed_cons, byteStep_frames_append, ih, feed_cons]

/-- A chunk fed on top of emitted frames emits its own frames behind them. -/
theorem feed_of_frames (buf : Bytes) (ep : Bool) (fault : Option Fault) (g : List Bytes)
    (x : Bytes) :
    feed c ⟨buf, ep, fault, g⟩ x =
      { feed c ⟨buf, ep, fault, []⟩ x with
        frames := g ++ (feed c ⟨buf, ep, fault, []⟩ x).frames } := by
  simpa using feed_frames_append (d := ⟨buf, ep, fault, []⟩) (c := c) g x

/-- A property of decoders that every byte step keeps holds after a chunk. -/
theorem feed_induction {P : Decoder → Prop} (step : ∀ d b, P d → P (byteStep c d b))
    (h : P d) (x : Bytes) : P (feed c d x) := by
  induction x generalizing d with
  | nil => exact h
  | cons b x ih => exact ih (step d b h)

/-- No empty frame is emitted (40_framer.md R106 (e)). -/
theorem feed_frames_nonempty (h : [] ∉ d.frames) (x : Bytes) : [] ∉ (feed c d x).frames := by
  refine feed_induction (P := fun d => [] ∉ d.frames) (fun d b hd => ?_) h x
  rcases byteStep_cases c d b with ⟨-, e⟩ | ⟨-, str, e⟩ | ⟨-, -, hb, e⟩ | ⟨-, -, -, e⟩ | ⟨-, -, e⟩
  all_goals rw [e]
  all_goals simp_all

/-- BUF stays within P_BUF_CAP (10_state.md R19). -/
theorem feed_buf_fits (h : fitsCap c d.buf.length = true) (x : Bytes) :
    fitsCap c (feed c d x).buf.length = true := by
  refine feed_induction (P := fun d => fitsCap c d.buf.length = true) (fun d b hd => ?_) h x
  rcases byteStep_cases c d b with ⟨-, e⟩ | ⟨-, str, e⟩ | ⟨-, -, hb, e⟩ | ⟨-, -, -, e⟩ | ⟨-, -, e⟩
  · rwa [e]
  · rw [e]
    rcases app_cases (c := c) (d := { d with ep := false }) str with ⟨hs, e'⟩ | ⟨-, e'⟩
    · rw [e']; simpa using hs
    · rw [e']; exact hd
  · rw [e]; exact fitsCap_mono (Nat.zero_le _) hd
  · rwa [e]
  · rwa [e]

/-- With P_BUF_CAP = ∞ the mark is never set (40_framer.md R103). -/
theorem feed_fault_of_no_cap (hc : c.bufCap = none) (x : Bytes) :
    (feed c d x).fault = d.fault := by
  refine feed_induction (P := fun e => e.fault = d.fault) (fun e b he => ?_) rfl x
  rcases byteStep_cases c e b with ⟨-, h⟩ | ⟨-, str, h⟩ | ⟨-, -, hb, h⟩ | ⟨-, -, -, h⟩ | ⟨-, -, h⟩
  · rwa [h]
  · rw [h, app_of_fits (fitsCap_of_none hc)]; exact he
  · rw [h]; exact he
  · rwa [h]
  · rw [h]; exact he

/-! ### Encoding against decoding -/

@[simp] theorem escAll_nil : escAll c [] = [] := rfl

@[simp] theorem escAll_cons (b : Byte) (x : Bytes) :
    escAll c (b :: x) = escByte c b ++ escAll c x := rfl

/-- The framer octets of a well-formed configuration are pairwise distinct. -/
theorem octets_of_configWf (h : configWf c = true) :
    c.flag ≠ c.esc ∧ c.flag ≠ c.escFlag ∧ c.flag ≠ c.escEsc ∧ c.esc ≠ c.escFlag ∧
      c.esc ≠ c.escEsc ∧ c.escFlag ≠ c.escEsc := by
  simp only [configWf, Bool.and_eq_true, decide_eq_true_eq] at h
  have := h.1.1.1
  simp only [List.nodup_cons, List.mem_cons, List.not_mem_nil, or_false, not_or] at this
  tauto

/-- The escape of one byte decodes to that byte. -/
theorem feed_escByte (hc : configWf c = true) (he : d.ep = false) (hf : d.fault = none) (b : Byte)
    (fit : fitsCap c (d.buf.length + 1) = true) :
    feed c d (escByte c b) = { d with buf := d.buf ++ [b] } := by
  obtain ⟨buf, ep, fault, frames⟩ := d
  obtain ⟨h1, h2, h3, h4, h5, h6⟩ := octets_of_configWf hc
  simp only at he hf fit
  subst he hf
  unfold escByte
  by_cases hb : b = c.flag
  · subst hb; simp [byteStep, h1.symm, app, fit]
  · by_cases hb' : b = c.esc
    · subst hb'; simp [byteStep, hb, h6.symm, app, fit]
    · simp [byteStep, hb, hb', app, fit]

/-- The escape of a string decodes to that string. -/
theorem feed_escAll (hc : configWf c = true) (he : d.ep = false) (hf : d.fault = none) (x : Bytes)
    (fit : fitsCap c (d.buf.length + x.length) = true) :
    feed c d (escAll c x) = { d with buf := d.buf ++ x } := by
  induction x generalizing d with
  | nil => simp
  | cons b x ih =>
    have h1 := feed_escByte hc he hf b (fitsCap_mono (by simp) fit)
    have h2 := ih (d := { d with buf := d.buf ++ [b] }) he hf
      (by simpa [Nat.add_assoc, Nat.add_comm 1] using fit)
    rw [escAll_cons, feed_append, h1, h2]
    simp

/-- The delimiter is no byte of an escaped string (40_framer.md R101). -/
theorem flag_not_mem_escAll (hc : configWf c = true) (x : Bytes) : c.flag ∉ escAll c x := by
  obtain ⟨h1, h2, h3, -, -, -⟩ := octets_of_configWf hc
  induction x with
  | nil => simp
  | cons b x ih =>
    rw [escAll_cons, List.mem_append, not_or]
    refine ⟨?_, ih⟩
    unfold escByte
    split
    · simp [h1, h2]
    · split
      · simp [h1, h3]
      · next hb _ => simpa using fun h : c.flag = b => hb h.symm

/-- The length of an escaped string (40_framer.md R101). -/
theorem length_escAll (x : Bytes) :
    (escAll c x).length = x.length + x.countP (fun b => b = c.flag ∨ b = c.esc) := by
  induction x with
  | nil => rfl
  | cons b x ih =>
    rw [escAll_cons, List.length_append, ih, List.length_cons, List.countP_cons]
    unfold escByte
    by_cases h1 : b = c.flag
    · simp only [h1, if_true, true_or, decide_true, List.length_cons, List.length_nil]
      omega
    · by_cases h2 : b = c.esc
      · subst h2
        simp [h1]
        omega
      · simp only [h1, h2, if_false, or_self, decide_false, List.length_cons, List.length_nil,
          Bool.false_eq_true]
        omega

end Sys2Proof.Machine
end

