-- ==== Sys2Proof/Laws/Exec.lean ====
section
/-! SUPPORT. What an instruction can do to the state, once: return one record and change nothing
else, or, for FRM_FEED and FRM_RST, also write the decoder. -/

namespace Sys2Proof.Machine

/-- FRM_FEED without an overflow. -/
theorem execFrmFeed_of_no_fault {s : State} (h : (feed s.cfg s.decoder s.port.a).fault = none) :
    execFrmFeed s = .next ((s.withDecoder (feed s.cfg s.decoder s.port.a)).ret
      { frames := (feed s.cfg s.decoder s.port.a).frames }) := by
  simp only [execFrmFeed]
  rw [h]

/-- FRM_FEED with an overflow. -/
theorem execFrmFeed_of_fault {s : State} {f : Fault}
    (h : (feed s.cfg s.decoder s.port.a).fault = some f) :
    execFrmFeed s = .next (s.withDecoder (feed s.cfg s.decoder s.port.a)) := by
  simp only [execFrmFeed]
  rw [h]

/-- Everything an instruction can answer. -/
theorem exec_cases (i : Instr) (s : State) :
    (i ≠ .frmFeed ∧ i ≠ .frmRst ∧ ∃ r, exec i s = .next (s.ret r)) ∨
    (i = .frmRst ∧ exec i s = .next ((s.withDecoder ⟨[], false, s.fault, []⟩).ret {})) ∨
    (i = .frmFeed ∧ (feed s.cfg s.decoder s.port.a).fault = none ∧
      exec i s = .next ((s.withDecoder (feed s.cfg s.decoder s.port.a)).ret
        { frames := (feed s.cfg s.decoder s.port.a).frames })) ∨
    (i = .frmFeed ∧ (∃ f, (feed s.cfg s.decoder s.port.a).fault = some f) ∧
      exec i s = .next (s.withDecoder (feed s.cfg s.decoder s.port.a))) := by
  cases i with
  | frmFeed =>
    cases h : (feed s.cfg s.decoder s.port.a).fault with
    | none => exact .inr (.inr (.inl ⟨rfl, rfl, execFrmFeed_of_no_fault h⟩))
    | some f => exact .inr (.inr (.inr ⟨rfl, ⟨f, rfl⟩, execFrmFeed_of_fault h⟩))
  | frmRst => exact .inr (.inl ⟨rfl, rfl⟩)
  | frmEnc => exact .inl ⟨nofun, nofun, _, rfl⟩
  | ckAppend => exact .inl ⟨nofun, nofun, _, rfl⟩
  | ckVerify => exact .inl ⟨nofun, nofun, _, rfl⟩
  | ckStrip =>
    refine .inl ⟨nofun, nofun, ?_⟩
    simp only [exec, execCkStrip]
    split <;> exact ⟨_, rfl⟩
  | qEnc f =>
    refine .inl ⟨nofun, nofun, ?_⟩
    simp only [exec, execQEnc]
    repeat' split
    all_goals exact ⟨_, rfl⟩
  | qDec f =>
    refine .inl ⟨nofun, nofun, ?_⟩
    simp only [exec, execQDec]
    repeat' split
    all_goals exact ⟨_, rfl⟩
  | lePut n =>
    refine .inl ⟨nofun, nofun, ?_⟩
    simp only [exec, execLePut]
    split <;> exact ⟨_, rfl⟩
  | leGet n ofs =>
    refine .inl ⟨nofun, nofun, ?_⟩
    simp only [exec, execLeGet]
    split <;> exact ⟨_, rfl⟩
  | frMkreq dest src cmd =>
    refine .inl ⟨nofun, nofun, ?_⟩
    simp only [exec, execFrMkreq, State.build]
    split <;> exact ⟨_, rfl⟩
  | frMkrep dest src cmd ack =>
    refine .inl ⟨nofun, nofun, ?_⟩
    simp only [exec, execFrMkrep, State.build]
    split <;> exact ⟨_, rfl⟩
  | frParse =>
    refine .inl ⟨nofun, nofun, ?_⟩
    simp only [exec, execFrParse]
    split <;> exact ⟨_, rfl⟩
  | frValid =>
    refine .inl ⟨nofun, nofun, ?_⟩
    simp only [exec, execFrValid]
    repeat' split
    all_goals exact ⟨_, rfl⟩
  | tmDec sel =>
    refine .inl ⟨nofun, nofun, ?_⟩
    simp only [exec, execTmDec]
    repeat' split
    all_goals exact ⟨_, rfl⟩
  | spProj sel =>
    refine .inl ⟨nofun, nofun, ?_⟩
    simp only [exec, execSpProj]
    split <;> exact ⟨_, rfl⟩

/-- No instruction refuses or faults: each answers a next state. -/
theorem exec_answers_next (i : Instr) (s : State) : ∃ t, exec i s = .next t := by
  rcases exec_cases i s with ⟨-, -, r, h⟩ | ⟨-, h⟩ | ⟨-, -, h⟩ | ⟨-, -, h⟩ <;> exact ⟨_, h⟩

/-- Running a word, legal or not, answers a next state. -/
theorem runWord_answers_next (w : OpWord) (s : State) : ∃ t, runWord w s = .next t := by
  unfold runWord
  split
  · exact exec_answers_next _ _
  · exact ⟨_, rfl⟩

/-- The four outcomes of a step, in the order they are decided. -/
theorem step_cases (s : State) :
    (configWf s.cfg = false ∧ step s = .refused .illFormedConfig) ∨
    (configWf s.cfg = true ∧ ∃ f, s.fault = some f ∧ step s = .fault f) ∨
    (configWf s.cfg = true ∧ s.fault = none ∧ s.pending = [] ∧ step s = .next s) ∨
    (configWf s.cfg = true ∧ s.fault = none ∧ ∃ q rest, s.pending = q :: rest ∧
      step s = runWord q.opw (s.issue q rest)) := by
  cases hc : configWf s.cfg with
  | false => exact .inl ⟨rfl, by simp [step, hc]⟩
  | true =>
    refine .inr ?_
    cases hf : s.fault with
    | some f => exact .inl ⟨rfl, f, rfl, by simp [step, hc, hf]⟩
    | none =>
      refine .inr ?_
      cases hp : s.pending with
      | nil => exact .inl ⟨rfl, rfl, rfl, by simp [step, hc, hf, hp]⟩
      | cons q rest =>
        exact .inr ⟨rfl, rfl, q, rest, rfl, by simp [step, hc, hf, hp]⟩

end Sys2Proof.Machine
end

