-- ==== Sys2Proof/Laws/FixedPoint.lean ====
section
/-! SUPPORT. What the fixed-point operations do: the width and range of a descriptor, truncation
toward zero, and the two's-complement map against its inverse (43_fixed_point.md R130 to R138). -/

namespace Sys2Proof.Machine

variable (f : QFormat)

/-! ### Powers and widths -/

theorem pow2_eq (n : Nat) : pow2 n = (2 : Rat) ^ n := by
  simp [pow2]

theorem pow2_pos (n : Nat) : 0 < pow2 n := by
  rw [pow2_eq]; positivity

theorem hasWidth_iff : hasWidth f = true ↔ sigWidth f ≤ 32 := by
  simp [hasWidth]

/-- The byte width is 8, 16 or 32. -/
theorem qWidth_cases : qWidth f = 8 ∨ qWidth f = 16 ∨ qWidth f = 32 := by
  unfold qWidth; split <;> [skip; split] <;> simp

/-- A descriptor that has a width fits it. -/
theorem sigWidth_le_qWidth (h : hasWidth f = true) : sigWidth f ≤ qWidth f := by
  rw [hasWidth_iff] at h
  unfold qWidth; split <;> [skip; split] <;> omega

theorem qWidth_pos : 0 < qWidth f := by
  rcases qWidth_cases f with h | h | h <;> omega

/-! ### The range -/

/-- The raw range of a descriptor (43_fixed_point.md R132): lo and hi scaled by 2^FB are integers. -/
theorem qLo_mul : qLo f * pow2 f.fb.toNat =
    ((if f.signed then -2 ^ (f.ib.toNat + f.fb.toNat) else 0 : Int) : Rat) := by
  unfold qLo
  split <;> simp [pow2_eq, pow_add]

theorem qHi_mul : qHi f * pow2 f.fb.toNat =
    ((2 ^ (f.ib.toNat + f.fb.toNat) - 1 : Int) : Rat) := by
  have := (pow2_pos f.fb.toNat).ne'
  unfold qHi
  rw [sub_mul, div_mul_cancel₀ _ this]
  simp [pow2_eq, pow_add]

theorem qLo_le_qHi : qLo f ≤ qHi f := by
  have hp := pow2_pos f.fb.toNat
  rw [← mul_le_mul_iff_left₀ hp, qLo_mul, qHi_mul, Int.cast_le]
  have : (1 : Int) ≤ 2 ^ (f.ib.toNat + f.fb.toNat) := one_le_pow₀ (by norm_num)
  split <;> omega

/-! ### Truncation toward zero -/

@[simp] theorem trunc_intCast (n : Int) : trunc (n : Rat) = n := by
  simp [trunc]

/-- A non-negative rational is truncated to its floor. -/
theorem trunc_of_nonneg {q : Rat} (h : 0 ≤ q) : trunc q = ⌊q⌋ := by
  rw [trunc, Rat.floor_def', Int.tdiv_eq_ediv_of_nonneg (Rat.num_nonneg.mpr h)]

/-- A non-positive rational is truncated to its ceiling. -/
theorem trunc_neg (q : Rat) : trunc (-q) = -trunc q := by
  simp [trunc, Int.neg_tdiv]

/-- Truncation drops less than 1, toward zero. -/
theorem trunc_spec (q : Rat) :
    (0 ≤ q → (trunc q : Rat) ≤ q ∧ q < trunc q + 1 ∧ 0 ≤ trunc q) ∧
    (q ≤ 0 → q ≤ trunc q ∧ (trunc q : Rat) - 1 < q ∧ trunc q ≤ 0) := by
  have key : ∀ p : Rat, 0 ≤ p → (trunc p : Rat) ≤ p ∧ p < trunc p + 1 ∧ 0 ≤ trunc p :=
    fun p hp => by
      rw [trunc_of_nonneg hp]
      exact ⟨Int.floor_le p, Int.lt_floor_add_one p, Int.floor_nonneg.mpr hp⟩
  refine ⟨key q, fun h => ?_⟩
  obtain ⟨h1, h2, h3⟩ := key (-q) (by linarith)
  rw [trunc_neg] at h1 h2 h3
  push_cast at h1 h2
  exact ⟨by linarith, by linarith, by omega⟩

theorem abs_sub_trunc_lt_one (q : Rat) : |q - trunc q| < 1 := by
  obtain ⟨hp, hn⟩ := trunc_spec q
  rw [abs_lt]
  rcases le_total 0 q with h | h
  · obtain ⟨h1, h2, -⟩ := hp h; constructor <;> linarith
  · obtain ⟨h1, h2, -⟩ := hn h; constructor <;> linarith

/-- Truncation stays between integer bounds. -/
theorem trunc_mem_Icc {q : Rat} {a b : Int} (ha : (a : Rat) ≤ q) (hb : q ≤ b) : a ≤ trunc q ∧ trunc q ≤ b := by
  obtain ⟨hp, hn⟩ := trunc_spec q
  rcases le_total 0 q with h | h
  · obtain ⟨h1, h2, h3⟩ := hp h
    have : trunc q ≤ b := by exact_mod_cast h1.trans hb
    refine ⟨?_, this⟩
    have : (a : Rat) < trunc q + 1 := lt_of_le_of_lt ha h2
    have : a < trunc q + 1 := by exact_mod_cast this
    omega
  · obtain ⟨h1, h2, h3⟩ := hn h
    have : a ≤ trunc q := by exact_mod_cast ha.trans h1
    refine ⟨this, ?_⟩
    have : (trunc q : Rat) - 1 < b := lt_of_lt_of_le h2 hb
    have : trunc q - 1 < b := by exact_mod_cast this
    omega

/-! ### Two's complement -/

/-- The integer of a signed pattern in arithmetic: below half the range as it stands, from half the
range on less 2^W. -/
theorem fromPattern_eq {raw : Nat} (h : raw < 2 ^ qWidth f) :
    fromPattern f raw =
      if f.signed = true ∧ 2 ^ (qWidth f - 1) ≤ raw then (raw : Int) - 2 ^ qWidth f else raw := by
  have hw := qWidth_pos f
  have htb : raw.testBit (qWidth f - 1) = decide (2 ^ (qWidth f - 1) ≤ raw) := by
    obtain ⟨w, hw'⟩ : ∃ w, qWidth f = w + 1 := ⟨qWidth f - 1, by omega⟩
    rw [hw'] at h ⊢
    have hd : raw / 2 ^ w < 2 := Nat.div_lt_of_lt_mul (by rw [Nat.pow_succ] at h; omega)
    rw [Nat.add_sub_cancel, Nat.testBit_eq_decide_div_mod_eq, decide_eq_decide,
      Nat.mod_eq_of_lt hd]
    have := Nat.div_pos_iff (a := raw) (b := 2 ^ w)
    have := Nat.two_pow_pos w
    omega
  unfold fromPattern
  rw [htb]
  simp

/-- A raw value of the representable range has a W-bit pattern, which decodes to it
(43_fixed_point.md R138). -/
theorem toPattern_spec (h : hasWidth f = true) {r : Int}
    (hlo : (if f.signed then -2 ^ (f.ib.toNat + f.fb.toNat) else 0) ≤ r)
    (hhi : r ≤ 2 ^ (f.ib.toNat + f.fb.toNat) - 1) :
    ∃ n : Nat, toPattern (qWidth f) r = n ∧ n < 2 ^ qWidth f ∧ fromPattern f n = r := by
  have hs := sigWidth_le_qWidth f h
  have hw := qWidth_pos f
  unfold sigWidth at hs
  have hpow : (2 : Int) ^ qWidth f = 2 * 2 ^ (qWidth f - 1) := by
    rw [← pow_succ', Nat.sub_add_cancel hw]
  have hpow' : (2 : Nat) ^ qWidth f = 2 * 2 ^ (qWidth f - 1) := by
    rw [← pow_succ', Nat.sub_add_cancel hw]
  have hcast : ((2 ^ (qWidth f - 1) : Nat) : Int) = 2 ^ (qWidth f - 1) := by push_cast; rfl
  have hpos : (0 : Int) < 2 ^ (qWidth f - 1) := by positivity
  refine ⟨(toPattern (qWidth f) r).toNat, ?_⟩
  by_cases hsg : f.signed = true
  · have hle : (2 : Int) ^ (f.ib.toNat + f.fb.toNat) ≤ 2 ^ (qWidth f - 1) :=
      pow_le_pow_right₀ (by norm_num) (by simp [hsg] at hs; omega)
    simp only [hsg, if_true] at hlo
    have hp : 0 ≤ toPattern (qWidth f) r ∧ toPattern (qWidth f) r < 2 ^ qWidth f := by
      unfold toPattern; split <;> constructor <;> omega
    have hlt : (toPattern (qWidth f) r).toNat < 2 ^ qWidth f := by omega
    refine ⟨by omega, hlt, ?_⟩
    rw [fromPattern_eq f hlt]
    simp only [hsg, true_and]
    unfold toPattern at hp hlt ⊢
    split <;> split <;> omega
  · have hle : (2 : Int) ^ (f.ib.toNat + f.fb.toNat) ≤ 2 ^ qWidth f :=
      pow_le_pow_right₀ (by norm_num) (by omega)
    simp only [hsg, if_false, Bool.false_eq_true] at hlo
    have hp : toPattern (qWidth f) r = r := by unfold toPattern; split <;> omega
    have hlt : (toPattern (qWidth f) r).toNat < 2 ^ qWidth f := by omega
    refine ⟨by omega, hlt, ?_⟩
    rw [fromPattern_eq f hlt]
    simp [hsg]
    omega

/-- The truncated raw value of a clamped input stays in the raw range (43_fixed_point.md R138). -/
theorem trunc_clamped_mem (x : Rat) :
    (if f.signed then -2 ^ (f.ib.toNat + f.fb.toNat) else 0 : Int) ≤
        trunc (min (max x (qLo f)) (qHi f) * pow2 f.fb.toNat) ∧
      trunc (min (max x (qLo f)) (qHi f) * pow2 f.fb.toNat) ≤
        2 ^ (f.ib.toNat + f.fb.toNat) - 1 := by
  have hp := pow2_pos f.fb.toNat
  have h1 : qLo f ≤ min (max x (qLo f)) (qHi f) := le_min (le_max_right _ _) (qLo_le_qHi f)
  have h2 : min (max x (qLo f)) (qHi f) ≤ qHi f := min_le_right _ _
  refine trunc_mem_Icc ?_ ?_
  · rw [← qLo_mul]; exact mul_le_mul_of_nonneg_right h1 hp.le
  · rw [← qHi_mul]; exact mul_le_mul_of_nonneg_right h2 hp.le

end Sys2Proof.Machine
end

