-- ==== Sys2Proof/Laws/Strings.lean ====
section
/-! SUPPORT. What the byte-string operations do: slices, little-endian fields, the checksum trailer,
serialization and parse (00_scope.md R14; 20_memory.md R40; 41_checksum.md; 42_frame_model.md). -/

namespace Sys2Proof.Machine

/-! ### Slices -/

theorem slice_zero (s : Bytes) (j : Nat) : slice s 0 j = s.take j := by
  simp [slice]

theorem slice_add (s : Bytes) (o n : Nat) : slice s o (o + n) = (s.drop o).take n := by
  simp [slice]

/-- A slice that ends inside a prefix is a slice of the prefix. -/
theorem slice_append_left (s t : Bytes) {o n : Nat} (h : o + n ≤ s.length) :
    slice (s ++ t) o (o + n) = slice s o (o + n) := by
  rw [slice_add, slice_add, List.drop_append_of_le_length (by omega), List.take_append_of_le_length]
  simp; omega

theorem slice_take (s : Bytes) {o n m : Nat} (h : o + n ≤ m) :
    slice (s.take m) o (o + n) = slice s o (o + n) := by
  rw [slice_add, slice_add, List.drop_take, List.take_take]
  congr 1; omega

/-! ### Little-endian fields -/

@[simp] theorem leBytes_length (n v : Nat) : (leBytes n v).length = n := by
  induction n generalizing v with
  | zero => rfl
  | succ n ih => simp [leBytes, ih]

/-- `le_val` of n bytes is below 2^(8n). -/
theorem leVal_lt (s : Bytes) : leVal s < 2 ^ (8 * s.length) := by
  induction s with
  | nil => simp [leVal]
  | cons b s ih =>
    have hb := b.isLt
    have : 2 ^ (8 * (b :: s).length) = 256 * 2 ^ (8 * s.length) := by
      rw [List.length_cons, Nat.mul_succ, Nat.pow_add, Nat.mul_comm]
    rw [this, leVal]
    omega

/-- `le_val` reads back what `le_bytes` wrote. -/
theorem leVal_leBytes {n v : Nat} (h : v < 2 ^ (8 * n)) : leVal (leBytes n v) = v := by
  induction n generalizing v with
  | zero => simp at h; simp [leBytes, leVal, h]
  | succ n ih =>
    have h' : v < 256 * 2 ^ (8 * n) := by
      rw [Nat.mul_succ, Nat.pow_add] at h; omega
    rw [leBytes, leVal, ih (by omega), BitVec.toNat_ofNat]
    omega

/-- `le_bytes` writes back what `le_val` read. -/
theorem leBytes_leVal (s : Bytes) : leBytes s.length (leVal s) = s := by
  induction s with
  | nil => rfl
  | cons b s ih =>
    have hb := b.isLt
    rw [List.length_cons, leBytes, leVal, show (b.toNat + 256 * leVal s) / 256 = leVal s by omega,
      ih]
    congr 1
    apply BitVec.eq_of_toNat_eq
    rw [BitVec.toNat_ofNat]
    omega

/-- Byte k of `le_bytes_N(v)` holds (v >> 8k) & 0xFF (00_scope.md R14). -/
theorem leBytes_getElem? (n v k : Nat) (h : k < n) :
    (leBytes n v)[k]? = some (BitVec.ofNat 8 (v / 2 ^ (8 * k))) := by
  induction n generalizing v k with
  | zero => omega
  | succ n ih =>
    cases k with
    | zero => simp [leBytes]
    | succ k =>
      rw [leBytes, List.getElem?_cons_succ, ih _ _ (by omega), Nat.div_div_eq_div_mul,
        Nat.mul_succ, Nat.pow_add, Nat.mul_comm]

/-- The field read: the little-endian value of the n bytes, exactly where the field lies inside the
string (20_memory.md R40). -/
theorem readField_eq_some_iff {s : Bytes} {o : Nat} {n : FieldWidth} {v : Nat} :
    readField s o n = some v ↔
      o + n.bytes ≤ s.length ∧ v = leVal ((s.drop o).take n.bytes) := by
  unfold readField
  split <;> simp_all [slice_add, eq_comm]

theorem readField_eq_none_iff {s : Bytes} {o : Nat} {n : FieldWidth} :
    readField s o n = none ↔ s.length < o + n.bytes := by
  unfold readField
  split <;> simp <;> omega

theorem readField_append_left {s : Bytes} {o : Nat} {n : FieldWidth} (t : Bytes)
    (h : o + n.bytes ≤ s.length) : readField (s ++ t) o n = readField s o n := by
  simp [readField, h, slice_append_left s t h, show o + n.bytes ≤ s.length + t.length by omega]

/-! ### The trailer -/

variable {c : Config}

@[simp] theorem trailer_length (d : Bytes) : (trailer c d).length = 2 := by
  unfold trailer; cases c.ckOrder <;> rfl

/-- CK_VERIFY's comparison holds exactly for data followed by its own trailer. -/
theorem verifies_append_iff (d t : Bytes) (h : t.length = 2) :
    verifies c (d ++ t) = true ↔ t = trailer c d := by
  have h1 : slice (d ++ t) ((d ++ t).length - 2) (d ++ t).length = t := by
    simp [slice, h]
  have h2 : slice (d ++ t) 0 ((d ++ t).length - 2) = d := by
    simp [slice, h]
  unfold verifies
  rw [h1, h2, if_neg (by simp [h])]
  simp

theorem verifies_of_short {s : Bytes} (h : s.length < 2) : verifies c s = false := by
  simp [verifies, h]

/-! ### Frames -/

@[simp] theorem parse_cons (d r k : Byte) (p : Bytes) :
    parse (d :: r :: k :: p) = some ⟨d, r, k, p⟩ := rfl

/-- `parse` fails exactly on fewer than 3 bytes (42_frame_model.md R121). -/
theorem parse_eq_none_iff {s : Bytes} : parse s = none ↔ s.length < 3 := by
  match s with
  | [] | [_] | [_, _] => simp [parse]
  | _ :: _ :: _ :: _ => simp [parse]

/-- `parse` undoes `ser` (42_frame_model.md R117, R121). -/
@[simp] theorem parse_ser (f : Frame) : parse (ser f) = some f := rfl

/-- What `parse` accepts is the serialization of what it answers. -/
theorem ser_of_parse {s : Bytes} {f : Frame} (h : parse s = some f) : ser f = s := by
  match s, h with
  | _ :: _ :: _ :: _, h => cases h; rfl

end Sys2Proof.Machine
end

