-- ==== Sys2Proof/Laws/Frames.lean ====
section
/-! SUPPORT. What building a frame does, and the bits of the control bytes it writes
(30_encoding.md R60 to R62; 42_frame_model.md R116 to R120). -/

namespace Sys2Proof.Machine

/-- The assigned command codes, as numbers (30_encoding.md R60). -/
theorem knownCommand_iff (cmd : BitVec 5) :
    knownCommand cmd = true ↔ cmd.toNat ∈ [0, 2, 3, 7, 8, 9, 10, 11] := by
  revert cmd; decide

theorem knownCommand_code (c : Command) : knownCommand c.code = true := by
  cases c <;> decide

/-- The fields of a request's control byte. -/
theorem requestControl_bits (cmd : BitVec 5) :
    cmdBits (requestControl cmd) = cmd ∧ reqBit (requestControl cmd) = true ∧
    rsvBit (requestControl cmd) = false ∧ ackBit (requestControl cmd) = false := by
  revert cmd; decide +kernel

/-- The fields of a reply's control byte. -/
theorem replyControl_bits (cmd : BitVec 5) (ack : Bool) :
    cmdBits (replyControl cmd ack) = cmd ∧ reqBit (replyControl cmd ack) = false ∧
    rsvBit (replyControl cmd ack) = false ∧ ackBit (replyControl cmd ack) = ack := by
  revert cmd ack; decide +kernel

variable (s : State) (dest src : BitVec 7) (cmd : BitVec 5) (control : Byte)

/-- With an assigned code, `build` returns the serialized frame. -/
theorem State.build_of_known (h : knownCommand cmd = true) :
    s.build dest src cmd control =
      s.ret { r := ser ⟨dest.setWidth 8, src.setWidth 8, control, s.port.a⟩ } := by
  simp [State.build, h]

/-- With an unassigned code, `build` raises E_ILLEGAL_OP(0). -/
theorem State.build_of_unknown (h : knownCommand cmd = false) :
    s.build dest src cmd control = s.raise .eIllegalOp 0 := by
  simp [State.build, h]

end Sys2Proof.Machine
end

