-- ==== Sys2Proof/Laws/PerInstr.lean ====
section
/-! SUPPORT. Per instruction: its encoded word matches its own row of the opcode table
(30_encoding.md R58). -/

namespace Sys2Proof.Laws.MatchesRow

/-- The word of i agrees with a row of spec/opcode_table.json that carries its mnemonic. -/
def Statement (i : Instr) : Prop :=
  ∃ r ∈ opcodeTable, r.mnemonic = mnemonicOf i ∧ r.covers (encode i) = true

/-- A row by its place in the table. -/
theorem of_row {i : Instr} (k : Nat) (hk : k < opcodeTable.length)
    (hm : opcodeTable[k].mnemonic = mnemonicOf i)
    (hw : encode i &&& opcodeTable[k].mask = opcodeTable[k].pattern) : Statement i :=
  ⟨opcodeTable[k], List.getElem_mem hk, hm, by simp [OpcodeRow.covers, hw]⟩

theorem frmEnc : Statement .frmEnc := of_row 0 (by decide) rfl (by decide)
theorem frmFeed : Statement .frmFeed := of_row 1 (by decide) rfl (by decide)
theorem frmRst : Statement .frmRst := of_row 2 (by decide) rfl (by decide)
theorem ckAppend : Statement .ckAppend := of_row 3 (by decide) rfl (by decide)
theorem ckVerify : Statement .ckVerify := of_row 4 (by decide) rfl (by decide)
theorem ckStrip : Statement .ckStrip := of_row 5 (by decide) rfl (by decide)
theorem qEnc (fmt : QFormat) : Statement (.qEnc fmt) := by
  refine of_row 6 (by decide) rfl ?_
  show (0x20#8 ++ 0#7 ++ BitVec.ofBool fmt.signed ++ fmt.ib ++ fmt.fb : BitVec (8 + 7 + 1 + 8 + 8))
    &&& (0xFF#8 ++ 0x7F#7 ++ 0#1 ++ 0#8 ++ 0#8) = _
  simp only [BitVec.and_append, BitVec.and_zero]
  decide
theorem qDec (fmt : QFormat) : Statement (.qDec fmt) := by
  refine of_row 7 (by decide) rfl ?_
  show (0x21#8 ++ 0#7 ++ BitVec.ofBool fmt.signed ++ fmt.ib ++ fmt.fb : BitVec (8 + 7 + 1 + 8 + 8))
    &&& (0xFF#8 ++ 0x7F#7 ++ 0#1 ++ 0#8 ++ 0#8) = _
  simp only [BitVec.and_append, BitVec.and_zero]
  decide
theorem lePut (width : FieldWidth) : Statement (.lePut width) := by
  refine of_row 8 (by decide) rfl ?_
  cases width <;> decide
theorem leGet (width : FieldWidth) (ofs : BitVec 16) : Statement (.leGet width ofs) := by
  refine of_row 9 (by decide) rfl ?_
  show (0x23#8 ++ selOfWidth width ++ 0#6 ++ ofs : BitVec (8 + 2 + 6 + 16))
    &&& (0xFF#8 ++ 0#2 ++ 0x3F#6 ++ 0#16) = _
  simp only [BitVec.and_append, BitVec.and_zero]
  decide
theorem frMkreq (dest src : BitVec 7) (cmd : BitVec 5) : Statement (.frMkreq dest src cmd) := by
  refine of_row 10 (by decide) rfl ?_
  show (0x30#8 ++ 0#4 ++ 0#1 ++ cmd ++ src ++ dest : BitVec (8 + 4 + 1 + 5 + 7 + 7))
    &&& (0xFF#8 ++ 0xF#4 ++ 1#1 ++ 0#5 ++ 0#7 ++ 0#7) = _
  simp only [BitVec.and_append, BitVec.and_zero]
  decide
theorem frMkrep (dest src : BitVec 7) (cmd : BitVec 5) (ack : Bool) :
    Statement (.frMkrep dest src cmd ack) := by
  refine of_row 11 (by decide) rfl ?_
  show (0x31#8 ++ 0#4 ++ BitVec.ofBool ack ++ cmd ++ src ++ dest : BitVec (8 + 4 + 1 + 5 + 7 + 7))
    &&& (0xFF#8 ++ 0xF#4 ++ 0#1 ++ 0#5 ++ 0#7 ++ 0#7) = _
  simp only [BitVec.and_append, BitVec.and_zero]
  decide
theorem frParse : Statement .frParse := of_row 12 (by decide) rfl (by decide)
theorem frValid : Statement .frValid := of_row 13 (by decide) rfl (by decide)
theorem tmDec (sel : Byte) : Statement (.tmDec sel) := by
  refine of_row 14 (by decide) rfl ?_
  show (0x40#8 ++ 0#16 ++ sel : BitVec (8 + 16 + 8)) &&& (0xFF#8 ++ 0xFFFF#16 ++ 0#8) = _
  simp only [BitVec.and_append, BitVec.and_zero]
  decide
theorem spProj (sel : Byte) : Statement (.spProj sel) := by
  refine of_row 15 (by decide) rfl ?_
  show (0x41#8 ++ 0#16 ++ sel : BitVec (8 + 16 + 8)) &&& (0xFF#8 ++ 0xFFFF#16 ++ 0#8) = _
  simp only [BitVec.and_append, BitVec.and_zero]
  decide

end Sys2Proof.Laws.MatchesRow
end

