-- ==== Sys2Proof/Laws/Telemetry.lean ====
section
/-! SUPPORT. What a well-formed configuration gives the telemetry operations, and what reading a
layout does (10_state.md R28; 44_telemetry.md R142 to R145). -/

namespace Sys2Proof.Machine

variable {c : Config}

theorem configWf_iff : configWf c = true ↔
    [c.flag, c.esc, c.escFlag, c.escEsc].Nodup ∧ ((tmBlocks c).map (·.id)).Nodup ∧
      (∀ b ∈ tmBlocks c, blockWf b = true) ∧
      [0x02#8, c.modeCurrent, c.modeTorque, c.modePwm].Nodup := by
  simp only [configWf, Bool.and_eq_true, decide_eq_true_eq, List.all_eq_true, and_assoc]

/-- P_TM_ID is injective. -/
theorem tmBlocks_id_inj (h : configWf c = true) {b₁ b₂ : BlockDesc} (h₁ : b₁ ∈ tmBlocks c)
    (h₂ : b₂ ∈ tmBlocks c) (he : b₁.id = b₂.id) : b₁ = b₂ :=
  List.inj_on_of_nodup_map (configWf_iff.mp h).2.1 h₁ h₂ he

/-- The identifier of a block names that block. -/
theorem findBlock_id (h : configWf c = true) {b : BlockDesc} (hb : b ∈ tmBlocks c) :
    findBlock c b.id = some b := by
  unfold findBlock
  cases hf : (tmBlocks c).find? (fun x => x.id == b.id) with
  | none => exact absurd (List.find?_eq_none.mp hf b hb) (by simp)
  | some x =>
    have hx := List.find?_some hf
    exact congrArg some (tmBlocks_id_inj h (List.mem_of_find?_eq_some hf) hb (by simpa using hx))

theorem findBlock_eq_none_iff {sel : Byte} :
    findBlock c sel = none ↔ ∀ b ∈ tmBlocks c, b.id ≠ sel := by
  simp [findBlock]

/-- A field of a block of a well-formed configuration ends inside the block. -/
theorem field_fits (h : configWf c = true) {b : BlockDesc} (hb : b ∈ tmBlocks c) {f : FieldDesc}
    (hf : f ∈ b.fields) : f.ofs + f.width.bytes ≤ b.len := by
  have := (configWf_iff.mp h).2.2.1 b hb
  simp only [blockWf, Bool.and_eq_true, List.all_eq_true] at this
  have := this.1 f hf
  simp only [fieldWf, Bool.and_eq_true, decide_eq_true_eq] at this
  exact this.1

/-- A layout whose fields lie inside the string is read whole, in order. -/
theorem readFields_of_fits {s : Bytes} {fs : List FieldDesc}
    (h : ∀ f ∈ fs, f.ofs + f.width.bytes ≤ s.length) :
    readFields s fs = some (fs.map (fun f =>
      ⟨f.name, leVal ((s.drop f.ofs).take f.width.bytes),
        fieldValue f.kind (leVal ((s.drop f.ofs).take f.width.bytes))⟩)) := by
  induction fs with
  | nil => rfl
  | cons f fs ih =>
    rw [readFields, ih (fun g hg => h g (List.mem_cons_of_mem _ hg)),
      readField_eq_some_iff.mpr ⟨h f (List.mem_cons_self ..), rfl⟩]
    rfl

/-- The format of each of the four modes, and none for any other code. -/
theorem setpointFormat_spec (h : configWf c = true) (sel : Byte) :
    (sel = 0x02#8 ∨ sel = c.modeCurrent → setpointFormat c sel = some q14x18) ∧
    (sel = c.modeTorque → setpointFormat c sel = some q10x22) ∧
    (sel = c.modePwm → setpointFormat c sel = some i32) ∧
    (sel ∉ [0x02#8, c.modeCurrent, c.modeTorque, c.modePwm] → setpointFormat c sel = none) := by
  have hn := (configWf_iff.mp h).2.2.2
  simp only [List.nodup_cons, List.mem_cons, List.not_mem_nil, or_false, not_or] at hn
  obtain ⟨⟨h1, h2, h3⟩, ⟨h4, h5⟩, h6, -⟩ := hn
  unfold setpointFormat
  refine ⟨fun e => if_pos e, fun e => ?_, fun e => ?_, fun e => ?_⟩
  · subst e; rw [if_neg (by simp [Ne.symm h2, Ne.symm h4]), if_pos rfl]
  · subst e
    rw [if_neg (by simp [Ne.symm h3, Ne.symm h5]), if_neg (Ne.symm h6), if_pos rfl]
  · simp only [List.mem_cons, List.not_mem_nil, or_false, not_or] at e
    rw [if_neg (by tauto), if_neg e.2.2.1, if_neg e.2.2.2]

end Sys2Proof.Machine
end

