-- ==== Sys2Proof/Tests/Slice0.lean ====
section
/-! SUPPORT. Tests: the checks of WellFormed, words of the spec's encoding tables, the vectors of
95_test_vectors.md (L1 and L2, expected values copied from there), and, for every obligation with
hypotheses, a state and operands that meet them together. -/

namespace Sys2Proof.Tests

open Sys2Proof.Machine

-- One theorem at a time: the many small evaluations below would otherwise each ask for a thread.
set_option Elab.async false

/-! ### Helpers -/

/-- Power-on with configuration c and the operands A, B, X.f64 and X.u32. -/
def onPort (c : Config) (a b : Bytes) (f : F64) (u : BitVec 32) : State :=
  { State.powerOn c with port := ⟨a, b, ⟨f, u⟩⟩ }

/-- The example profile with operands A and B. -/
def onA (a : Bytes) (b : Bytes := []) : State := onPort .exHdlc a b 0 0

/-- The example profile with operand X.f64. -/
def onF (f : F64) : State := onPort .exHdlc [] [] f 0

/-- The example profile with operand X.u32. -/
def onU (u : BitVec 32) : State := onPort .exHdlc [] [] 0 u

/-- The decoder state (BUF, EP) in the example profile, with operand A. -/
def midFrame (buf : Bytes) (ep : Bool) (a : Bytes) : State := { onA a with buf := buf, ep := ep }

/-- The example profile with P_BUF_CAP = k. -/
def capped (k : Nat) : Config := { Config.exHdlc with bufCap := some k }

/-- The last result an outcome leaves. -/
def lastOf (o : Host.Outcome State Fault Refusal) : Option Result :=
  match o with
  | .next t => t.results.getLast?
  | _ => none

/-- The decoder an outcome leaves. -/
def decoderOf (o : Host.Outcome State Fault Refusal) : Option (Bytes × Bool × Option Fault) :=
  match o with
  | .next t => some (t.buf, t.ep, t.fault)
  | _ => none

/-- Whether a word decodes. -/
def legal (w : OpWord) : Bool :=
  match decode w with
  | .ok _ => true
  | .error _ => false

/-! ### WellFormed and the configuration check refuse ill-formed terms -/

theorem test_wf_refuses_unassigned_request_command : (Instr.frMkreq 7 0x11 1).wf = false := by decide
theorem test_wf_refuses_unassigned_reply_command : (Instr.frMkrep 0x11 7 31 true).wf = false := by
  decide
theorem test_wf_accepts_last_assigned_command : (Instr.frMkreq 0 0x7F 11).wf = true := by decide
theorem test_configWf_refuses_equal_octets :
    configWf { Config.exHdlc with escEsc := 0x7E#8 } = false := by decide +kernel
theorem test_configWf_refuses_equal_block_ids :
    configWf { Config.exHdlc with tmVolt := ⟨0x02#8, []⟩ } = false := by decide +kernel
theorem test_configWf_refuses_field_past_the_end :
    configWf { Config.exHdlc with tmVolt := ⟨0x03#8, [⟨"v", 21, .w4, .setpoint⟩]⟩ } = false := by
  decide +kernel
theorem test_configWf_refuses_descriptor_of_other_width :
    configWf { Config.exHdlc with tmVolt := ⟨0x03#8, [⟨"v", 0, .w4, .q q14x2⟩]⟩ } = false := by
  decide +kernel
theorem test_configWf_refuses_short_setpoint :
    configWf { Config.exHdlc with tmVolt := ⟨0x03#8, [⟨"v", 0, .w2, .setpoint⟩]⟩ } = false := by
  decide +kernel
theorem test_configWf_refuses_equal_field_names :
    configWf { Config.exHdlc with
      tmVolt := ⟨0x03#8, [⟨"v", 0, .w4, .setpoint⟩, ⟨"v", 4, .w4, .setpoint⟩]⟩ } = false := by
  decide +kernel
theorem test_configWf_refuses_equal_mode_codes :
    configWf { Config.exHdlc with modePwm := 0x02#8 } = false := by decide +kernel
theorem test_configWf_accepts_example : configWf .exHdlc = true := by decide +kernel

/-! ### Decoding (words of 30_encoding.md R50 to R56, 43 R133 and 95 L2) -/

theorem test_decode_formatN :
    decode 0x01000000#32 = .ok .frmEnc ∧ decode 0x02000000#32 = .ok .frmFeed ∧
    decode 0x03000000#32 = .ok .frmRst ∧ decode 0x10000000#32 = .ok .ckAppend ∧
    decode 0x11000000#32 = .ok .ckVerify ∧ decode 0x12000000#32 = .ok .ckStrip ∧
    decode 0x32000000#32 = .ok .frParse ∧ decode 0x33000000#32 = .ok .frValid :=
  ⟨rfl, rfl, rfl, rfl, rfl, rfl, rfl, rfl⟩
/-- 0010 0000 | 0000 000 | 1 | 0000 1101 | 0001 0010: OP, zeros, S, IB = 13, FB = 18. -/
theorem test_decode_qEnc :
    decode 0b00100000000000010000110100010010#32 = .ok (.qEnc q14x18) ∧
    decode 0x20000808#32 = .ok (.qEnc ⟨false, 8, 8⟩) := ⟨rfl, rfl⟩
theorem test_decode_qDec : decode 0x21010D02#32 = .ok (.qDec ⟨true, 13, 2⟩) := rfl
theorem test_decode_lePut :
    decode 0x22800000#32 = .ok (.lePut .w4) ∧ decode 0x22400000#32 = .ok (.lePut .w2) ∧
    decode 0x22000000#32 = .ok (.lePut .w1) := ⟨rfl, rfl, rfl⟩
/-- 0010 0011 | 10 | 000000 | 0000 0000 0000 0001: OP, WSEL = 10, zeros, OFS = 1. -/
theorem test_decode_leGet :
    decode 0b00100011100000000000000000000001#32 = .ok (.leGet .w4 1) ∧
    decode 0x2340FFFF#32 = .ok (.leGet .w2 0xFFFF) := ⟨rfl, rfl⟩
/-- 0011 0000 | 0000 | 0 | 01011 | 1111111 | 0000000: OP, zeros, ACK, CMD = 11, SRC, DEST. -/
theorem test_decode_frMkreq :
    decode 0b00110000000000101111111110000000#32 = .ok (.frMkreq 0 0x7F 11) ∧
    decode 0x30000887#32 = .ok (.frMkreq 0x07 0x11 0) := ⟨rfl, rfl⟩
theorem test_decode_frMkrep :
    decode 0x31080391#32 = .ok (.frMkrep 0x11 0x07 0 true) ∧
    decode 0x31000391#32 = .ok (frMknack 0x11 0x07 0) ∧
    decode 0x31088391#32 = .ok (frMkack 0x11 0x07 2) := ⟨rfl, rfl, rfl⟩
theorem test_decode_formatT :
    decode 0x40000002#32 = .ok (.tmDec 0x02) ∧ decode 0x410000FF#32 = .ok (.spProj 0xFF) ∧
    decode 0x41000002#32 = .ok spProjSpeed := ⟨rfl, rfl, rfl⟩
theorem test_illegal_opcodes : [0x00000000#32, 0xFF000000#32, 0x04000000#32, 0x13000000#32,
    0x24000000#32, 0x34000000#32, 0x42000000#32].all (!legal ·) = true := by decide
theorem test_illegal_reserved_bits : [0x01000001#32, 0x02800000#32, 0x03000010#32, 0x12000100#32,
    0x20020000#32, 0x20800000#32, 0x23810000#32, 0x30100887#32, 0x31800391#32,
    0x40000102#32, 0x41800002#32].all (!legal ·) = true := by decide
theorem test_illegal_field_values : [0x23C00000#32, 0x22C00000#32, 0x22800001#32, 0x30080887#32,
    0x30004887#32, 0x3107C391#32].all (!legal ·) = true := by decide
theorem test_decodeTableWord :
    decodeTableWord 32 0x40000002 = some (.tmDec 0x02) ∧ decodeTableWord 32 0x40000102 = none :=
  ⟨rfl, rfl⟩

/-! ### Framer (95 L2.1) -/

theorem test_frmEnc_escapes : lastOf (exec .frmEnc (onA [0x7E, 0x7D, 0x00, 0xFF])) =
    some { r := [0x7E, 0x7D, 0x5E, 0x7D, 0x5D, 0x00, 0xFF, 0x7E] } := by decide +kernel
theorem test_frmEnc_substitutes_alone : lastOf (exec .frmEnc (onA [0x5E, 0x5D])) =
    some { r := [0x7E, 0x5E, 0x5D, 0x7E] } := by decide +kernel
theorem test_frmFeed_two_frames :
    lastOf (exec .frmFeed (onA [0x7E, 1, 0x7E, 0x7E, 2, 0x7D, 0x5D, 0x7E])) =
      some { frames := [[1], [2, 0x7D]] } := by decide +kernel
theorem test_frmFeed_keeps_pending_escape :
    decoderOf (exec .frmFeed (onA [0x7E, 0x7D, 0x5E, 0x7D])) = some ([0x7E], true, none) := by
  decide +kernel
theorem test_frmRst_keeps_fault :
    decoderOf (exec .frmRst { midFrame [1, 2] true [] with fault := some .overflow }) =
      some ([], false, some .overflow) := by decide +kernel

/-! ### Checksum (95 L2.2) -/

theorem test_ckAppend_check_value :
    lastOf (exec .ckAppend (onA [0x31, 0x32, 0x33, 0x34, 0x35, 0x36, 0x37, 0x38, 0x39])) =
      some { r := [0x31, 0x32, 0x33, 0x34, 0x35, 0x36, 0x37, 0x38, 0x39, 0xB1, 0x29] } := by
  decide +kernel
theorem test_ckAppend_high_byte_first :
    lastOf (exec .ckAppend (onPort { Config.exHdlc with ckOrder := .be } [7, 0x11, 0x80] [] 0 0)) =
      some { r := [7, 0x11, 0x80, 0xE8, 0xC6] } := by decide +kernel
theorem test_ckVerify_good : lastOf (exec .ckVerify (onA [7, 0x11, 0x80, 0xC6, 0xE8])) =
    some { y := .bool true } := by decide +kernel
theorem test_ckVerify_swapped_trailer : lastOf (exec .ckVerify (onA [7, 0x11, 0x80, 0xE8, 0xC6])) =
    some { y := .bool false } := by decide +kernel
theorem test_ckStrip_without_verifying : lastOf (exec .ckStrip (onA [7, 0x11, 0x80, 0, 0])) =
    some { r := [7, 0x11, 0x80] } := by decide +kernel
theorem test_ckStrip_short : lastOf (exec .ckStrip (onA [7])) = some { status := 0x0A } := by
  decide +kernel

/-! ### Frame model (95 L2.3) -/

theorem test_frMkreq_trip_lcl : lastOf (runWord 0x3002FF80#32 (onA [])) =
    some { r := [0x00, 0x7F, 0x8B] } := by decide +kernel
theorem test_frMkrep_ack : lastOf (runWord 0x31080391#32 (onA [1, 2, 3, 4, 5])) =
    some { r := [0x11, 7, 0x20, 1, 2, 3, 4, 5] } := by decide +kernel
theorem test_frMkrep_nack : lastOf (runWord 0x31000391#32 (onA [0xAA])) =
    some { r := [0x11, 7, 0x00, 0xAA] } := by decide +kernel
theorem test_frParse_invalid_kind : lastOf (exec .frParse (onA [0xFF, 0x80, 0xE5])) =
    some { record := .frame ⟨0xFF, 0x80, 0xE5, true, true, true, 5, .invalid, false⟩ } := by
  decide +kernel
theorem test_frParse_ack : lastOf (exec .frParse (onA [0x11, 7, 0x20, 1, 2])) =
    some { r := [1, 2], record := .frame ⟨0x11, 7, 0x20, false, false, true, 0, .ack, true⟩ } := by
  decide +kernel
theorem test_frValid_nack : lastOf (exec .frValid (onA [7, 0x11, 0x80] [0x11, 7, 0x00, 0xAA])) =
    some { status := 0x02, r := [0xAA] } := by decide +kernel
theorem test_frValid_nack_with_other_code :
    lastOf (exec .frValid (onA [7, 0x11, 0x80] [0x11, 7, 0x02, 0xAA])) =
      some { status := 0x03, detail := 1 } := by decide +kernel

/-! ### The wire format (30 R60, R63, R69 to R71; 95 L1.2, L1.4) -/

/-- The table of R63: request, ACK reply and NACK reply control bytes of the eight commands. -/
theorem test_control_bytes :
    [Command.ping, .peek, .poke, .appTm, .appCmd, .clearFault, .configProt, .tripLcl].map
      (fun c => (requestControl c.code, replyControl c.code true, replyControl c.code false)) =
    [(0x80, 0x20, 0x00), (0x82, 0x22, 0x02), (0x83, 0x23, 0x03), (0x87, 0x27, 0x07),
      (0x88, 0x28, 0x08), (0x89, 0x29, 0x09), (0x8A, 0x2A, 0x0A), (0x8B, 0x2B, 0x0B)] := by decide
theorem test_kind_codes : (kindOf true false).code = 0 ∧ (kindOf false true).code = 1 ∧
    (kindOf false false).code = 2 ∧ (kindOf true true).code = 3 := by decide
theorem test_assigned_codes : ∀ c : BitVec 5, knownCommand c = true ↔
    c ∈ [Command.ping, .peek, .poke, .appTm, .appCmd, .clearFault, .configProt, .tripLcl].map
      Command.code := by decide
theorem test_appCmd_payload :
    (CommandRequest.appCmd 0x02 0x0FA00000).payload = [0x02, 0x00, 0x00, 0xA0, 0x0F] := by decide
theorem test_pingReply :
    pingReply [1, 2, 3, 4, 5] = some ⟨1, 2, 3, 4, 5⟩ ∧ pingReply [1, 2, 3, 4] = none ∧
    replyShape .exHdlc .ping [1, 2, 3, 4, 5] = true := by decide +kernel
theorem test_pseudo_operations : decode (frmFeed1 0x7E).opw = .ok .frmFeed ∧
    tmDecBlock ⟨.temp, 0x02, 8, []⟩ = .tmDec 0x02 := ⟨rfl, rfl⟩

/-! ### Fixed point (95 L2.4, L2.5) -/

/-- X = 1000.1, the nearest binary64. -/
theorem test_qEnc_truncates : lastOf (exec (.qEnc q14x18) (onF 0x408F40CCCCCCCCCD#64)) =
    some { y := .int 0x0FA06666 } := by decide +kernel
/-- X = -0.3. -/
theorem test_qEnc_truncates_toward_zero : lastOf (exec (.qEnc q14x2) (onF 0xBFD3333333333333#64)) =
    some { y := .int 0xFFFF } := by decide +kernel
theorem test_qDec_sign_is_top_bit_of_width :
    lastOf (exec (.qDec ⟨true, 3, 2⟩) (onU 0x80)) = some { y := .rat (-32) } ∧
    lastOf (exec (.qDec ⟨true, 3, 2⟩) (onU 0x7F)) = some { y := .rat (127 / 4) } := by
  decide +kernel
theorem test_qDec_unsigned : lastOf (exec (.qDec uq8x8) (onU 0xFFFF)) =
    some { y := .rat (65535 / 256) } := by decide +kernel
theorem test_lePut_order : lastOf (exec (.lePut .w4) (onU 0x0FA00000)) =
    some { r := [0x00, 0x00, 0xA0, 0x0F] } := by decide +kernel
theorem test_lePut_does_not_truncate : lastOf (exec (.lePut .w1) (onU 0x100)) =
    some { status := 0x09 } := by decide +kernel
theorem test_leGet_at_offset : lastOf (exec (.leGet .w2 3) (onA [2, 0, 0, 0xA0, 0x0F])) =
    some { y := .int 0x0FA0 } := by decide +kernel
theorem test_leGet_past_the_end : lastOf (exec (.leGet .w4 2) (onA [2, 0, 0, 0xA0, 0x0F])) =
    some { status := 0x04 } := by decide +kernel

/-! ### Telemetry (95 L2.6) -/

theorem test_tmDec_temp : lastOf (exec (.tmDec 0x02) (onA [0x64, 0, 0xFF, 0xFF, 0, 0x10, 0, 0, 0x99])) =
    some { record := .block .temp [⟨"t0", 0x0064, some 25⟩, ⟨"t1", 0xFFFF, some (-1 / 4)⟩,
      ⟨"t2", 0x1000, some 1⟩] } := by decide +kernel
theorem test_tmDec_standard : lastOf (exec (.tmDec 0x01) (onA [2, 0, 0, 0xA0, 0x0F, 0, 0xFF, 0xFF,
      0xFF, 0, 0x18, 0, 0, 0, 0x80, 1, 0, 0x80, 1, 0, 0, 0x80, 1, 0, 0x80])) =
    some { record := .block .standard [⟨"mode", 2, some 2⟩, ⟨"setpoint", 0x0FA00000, none⟩,
      ⟨"speed", 0xFFFFFF00, some (-1)⟩, ⟨"current", 0x1800, some (3 / 2)⟩,
      ⟨"u16", 0x18000, some (3 / 2)⟩, ⟨"u24", 0x180, some (3 / 2)⟩, ⟨"u8", 0x180, some (3 / 2)⟩,
      ⟨"q2", 0x8000, some (-8192)⟩] } := by decide +kernel
theorem test_spProj_torque : lastOf (exec (.spProj 0x03) (onU 0x80000000)) =
    some { y := .rat (-512) } := by decide +kernel
theorem test_spProj_no_format : lastOf (exec (.spProj 0x05) (onU 0)) = some { status := 0x0B } := by
  decide +kernel

/-! ### The step -/

/-- 95 L2.7: an illegal FRM_FEED consumes nothing. -/
theorem test_step_illegal_word_keeps_decoder :
    decoderOf (step ((midFrame [1] true [0x7E]).withFetchWord 32 0x02800000)) =
      some ([1], true, none) := by decide +kernel
theorem test_step_runs_fetched_word :
    lastOf (step (State.reset.withFetchWord 32 0x40000009)) = some { status := 0x05 } := by
  decide +kernel
theorem test_step_waits : step State.reset = .next State.reset := rfl
theorem test_step_refuses_ill_formed_configuration :
    step (State.powerOn { Config.exHdlc with esc := 0x7E#8 }) = .refused .illFormedConfig := rfl

/-! ### Witnesses: a state and operands that meet each obligation's hypotheses together -/

/-! #### Encodings -/

theorem witness_DecodeOfEncode : (Instr.frMkreq 0x7F 0x00 11).wf = true := by decide
theorem witness_EncodeOfDecode : decode 0x3002FF80#32 = .ok (.frMkreq 0 0x7F 11) := rfl
theorem witness_DecoderFollowsOpcodeTable_decodes :
    decode 0x2380FFFF#32 = .ok (.leGet .w4 0xFFFF) := rfl
theorem witness_DecoderFollowsOpcodeTable_matches :
    ⟨"FR_MKREP", 0x31000000#32, 0xFFF00000#32⟩ ∈ opcodeTable ∧
    0x310AFFFF#32 &&& 0xFFF00000#32 = 0x31000000#32 ∧ ¬ valueRestricted 0x310AFFFF#32 := by
  refine ⟨by decide, by decide, ?_⟩
  simp only [valueRestricted]
  decide
/-- One word for each clause (a) to (f) of R57. -/
theorem witness_IllegalWordsRaiseIllegalOp :
    illegalWord 0x04000000#32 ∧ illegalWord 0x02800000#32 ∧ illegalWord 0x23C00000#32 ∧
    illegalWord 0x22800001#32 ∧ illegalWord 0x30080887#32 ∧ illegalWord 0x31030391#32 := by
  refine ⟨?_, ?_, ?_, ?_, ?_, ?_⟩ <;> simp only [illegalWord] <;> decide

/-! #### The step, runs and the invariant -/

/-- The example profile with one SP_PROJ SPEED issued. -/
def oneIssued : State :=
  { State.powerOn .exHdlc with pending := [⟨0x41000002#32, [], [], ⟨0, 0x0FA00000⟩⟩] }

/-- A machine of capacity k whose decoder overflowed. -/
def overflowed (k : Nat) : State :=
  { State.powerOn (capped k) with fault := some .overflow, buf := List.replicate k 1 }

/-- FRM_FEED of a chunk, issued by the host. -/
def feedRequest (a : Bytes) : Request := ⟨0x02000000#32, a, [], ⟨0, 0⟩⟩

theorem witness_StepRunsDecodedInstruction :
    configWf oneIssued.cfg = true ∧ oneIssued.fault = none ∧
    oneIssued.pending = ⟨0x41000002#32, [], [], ⟨0, 0x0FA00000⟩⟩ :: [] ∧
    decode 0x41000002#32 = .ok (.spProj 0x02) := ⟨by decide +kernel, rfl, rfl, rfl⟩
/-- The clause of the illegal word: FRM_FEED with opw[0] = 1. -/
theorem witness_StepRunsDecodedInstruction_illegal :
    configWf (State.powerOn .exHdlc).cfg = true ∧ (State.powerOn .exHdlc).fault = none ∧
    { State.powerOn .exHdlc with
      pending := [⟨0x02000001#32, [0x7E], [], ⟨0, 0⟩⟩] }.pending =
        ⟨0x02000001#32, [0x7E], [], ⟨0, 0⟩⟩ :: [] ∧
    ∀ i, decode 0x02000001#32 ≠ .ok i :=
  ⟨by decide +kernel, rfl, rfl, fun _ h => nomatch h⟩
theorem witness_FaultedStateHasNoStep :
    configWf (overflowed 2).cfg = true ∧ (overflowed 2).fault = some .overflow :=
  ⟨by decide +kernel, rfl⟩
theorem witness_ProgramEndsFinalOrFaulted :
    configWf oneIssued.cfg = true ∧ oneIssued.fault = none := ⟨by decide +kernel, rfl⟩
/-- The other end of ProgramEndsFinalOrFaulted is reached too (95 L2.1, F_OVERFLOW). -/
theorem witness_ProgramEndsFinalOrFaulted_overflow :
    step { State.powerOn (capped 2) with pending := [feedRequest [1, 2, 3]] } =
      .next { State.powerOn (capped 2) with
        port := ⟨[1, 2, 3], [], ⟨0, 0⟩⟩, buf := [1, 2], fault := some .overflow } := rfl
theorem witness_StepKeepsInvariant :
    oneIssued.Inv ∧ ∃ t, step oneIssued = .next t :=
  ⟨⟨by decide +kernel, by simp [oneIssued, Config.exHdlc, Config.initial], by simp [oneIssued],
    by simp [oneIssued]⟩, _, rfl⟩
theorem witness_PowerOnSatisfiesInvariant : configWf (capped 0) = true := by decide +kernel
theorem witness_ResetStateOfDecoder : configWf Config.initial = true := by decide +kernel
theorem witness_RefusesExactlyIllFormedConfigurations_refused :
    configWf { Config.exHdlc with escFlag := 0x7D#8 } = false := by decide +kernel
theorem witness_RefusesExactlyIllFormedConfigurations_accepted :
    configWf (capped 2) = true := by decide +kernel

/-! #### Framer -/

theorem witness_EscapeMap : configWf .exHdlc = true ∧
    (0x5E#8 ≠ Config.exHdlc.flag ∧ 0x5E#8 ≠ Config.exHdlc.esc) := by decide +kernel
theorem witness_FrmEncFramesPayload : configWf (onA [0x7E]).cfg = true := by decide +kernel
theorem witness_FrmFeedByteStep :
    (midFrame [1] true [0x7E]).fault = none ∧ (midFrame [1] true [0x7E]).port.a = [0x7E] :=
  ⟨rfl, rfl⟩
theorem witness_FrmFeedAcceptsEveryChunk :
    (midFrame [1] true []).fault = none ∧ (midFrame [1] true []).cfg.bufCap = none ∧
    (midFrame [1] true []).port.a = [] := ⟨rfl, rfl, rfl⟩
/-- An escape split across two chunks, in a machine whose capacity the frame just meets. -/
theorem witness_FrmFeedChunkingInvariance :
    ∃ t u : State, (State.powerOn (capped 2)).fault = none ∧
      exec .frmFeed ((State.powerOn (capped 2)).withA [1, 0x7D]) = .next t ∧
      t.results = (State.powerOn (capped 2)).results ++ [{ frames := [] }] ∧
      exec .frmFeed (t.withA [0x5E, 0x7E]) = .next u ∧
      u.results = t.results ++ [{ frames := [[1, 0x7E]] }] := ⟨_, _, rfl, rfl, rfl, rfl, rfl⟩
/-- Both ends: a frame that just fits, and one byte more. -/
theorem witness_FrmFeedOverflowSetsFault :
    (∃ t, exec .frmFeed (onPort (capped 2) [1, 2, 0x7E] [] 0 0) = .next t ∧ t.fault = none ∧
      t.results = [{ frames := [[1, 2]] }]) ∧
    ∃ t, exec .frmFeed (onPort (capped 2) [1, 2, 3] [] 0 0) = .next t ∧
      t.fault = some .overflow ∧ t.results = [] := ⟨⟨_, rfl, rfl, rfl⟩, _, rfl, rfl, rfl⟩
/-- Capacity 2 and capacity 0. -/
theorem witness_FrmFeedFaultsBeyondCapacity :
    ∀ s ∈ [onPort (capped 2) [1, 2, 3] [] 0 0, onPort (capped 0) [1] [] 0 0],
      s.fault = none ∧ s.buf = [] ∧ s.ep = false ∧ s.cfg.bufCap = some (s.port.a.length - 1) ∧
      s.port.a.length = s.port.a.length - 1 + 1 ∧
      ∀ b ∈ s.port.a, b ≠ s.cfg.flag ∧ b ≠ s.cfg.esc := by decide +kernel

/-- A machine of capacity 2, just enough for the payload 7E 41, whose wire string is issued in three
chunks, the escape cut in two. -/
def chunkedFeed : State :=
  { State.powerOn (capped 2) with
    pending := [feedRequest [0x7E, 0x7D], feedRequest [0x5E, 0x41], feedRequest [0x7E]] }

theorem witness_FramerReversibleInAnyChunking :
    configWf chunkedFeed.cfg = true ∧ chunkedFeed.fault = none ∧ chunkedFeed.buf = [] ∧
    chunkedFeed.ep = false ∧ ([0x7E, 0x41] : Bytes) ≠ [] ∧
    (∀ k, chunkedFeed.cfg.bufCap = some k → ([0x7E, 0x41] : Bytes).length ≤ k) ∧
    (∀ q ∈ chunkedFeed.pending, q.opw = 0x02000000#32) ∧
    (chunkedFeed.pending.map (·.args.a)).flatten =
      [chunkedFeed.cfg.flag] ++ [0x7E, 0x41].flatMap (escByte chunkedFeed.cfg) ++
        [chunkedFeed.cfg.flag] :=
  ⟨by decide +kernel, rfl, rfl, rfl, by decide, by simp [chunkedFeed, capped], by decide, rfl⟩
theorem witness_EmptyPayloadEmitsNoFrame :
    (onA [0x7E, 0x7E]).fault = none ∧ (onA [0x7E, 0x7E]).buf = [] ∧
    (onA [0x7E, 0x7E]).ep = false ∧
    (onA [0x7E, 0x7E]).port.a = [(onA [0x7E, 0x7E]).cfg.flag, (onA [0x7E, 0x7E]).cfg.flag] :=
  ⟨rfl, rfl, rfl, rfl⟩
/-- The states (01 02, 0) and (01 02, 1) with the reply 11 07 00 (95 L2.1). -/
theorem witness_StaleDecoderStateCorruptsReply : ∀ ep : Bool,
    let s := midFrame [1, 2] ep [0x7E, 0x11, 7, 0, 0x7E]
    configWf s.cfg = true ∧ s.fault = none ∧ s.cfg.bufCap = none ∧ ([0x11, 7, 0] : Bytes) ≠ [] ∧
    s.port.a = [s.cfg.flag] ++ [0x11, 7, 0].flatMap (escByte s.cfg) ++ [s.cfg.flag] ∧
    s.ep = ep ∧ s.buf ≠ [] := by decide +kernel
theorem witness_FrmRstDiscardsPartialFrame : (onA []).buf = [] ∧ (onA []).ep = false := ⟨rfl, rfl⟩

/-! #### Checksum -/

theorem witness_CkVerifyIffTrailerMatches :
    (onA [0xFF]).port.a.length < 2 ∧ (onA [0xFF, 0xFF]).port.a = [] ++ trailer .exHdlc [] := by
  decide +kernel
theorem witness_CkStripRemovesTwoBytes :
    (onA [1, 2]).port.a = [] ++ [1, 2] ∧ (onA [1]).port.a.length < 2 := by decide
theorem witness_ChecksumLaws : 2 ≤ ([0xFF, 0xFF] : Bytes).length ∧
    exec .ckVerify ((onA []).withA [0xFF, 0xFF]) =
      .next { (onA []).withA [0xFF, 0xFF] with results := [] ++ [{ y := .bool true }] } :=
  ⟨by decide, rfl⟩
theorem witness_SingleBitErrorsUnderCrc :
    Config.exHdlc.cksum = .crc16 0x1021#16 0xFFFF#16 0#16 ∧ (0x1021#16).getLsbD 0 = true := by decide

/-! #### Frame model -/

theorem witness_FrMkreqBuildsRequest :
    (11#5).toNat ∈ [0, 2, 3, 7, 8, 9, 10, 11] ∧ (12#5).toNat ∉ [0, 2, 3, 7, 8, 9, 10, 11] := by
  decide
theorem witness_FrMkrepBuildsReply :
    (0#5).toNat ∈ [0, 2, 3, 7, 8, 9, 10, 11] ∧ (1#5).toNat ∉ [0, 2, 3, 7, 8, 9, 10, 11] := by
  decide
theorem witness_BuiltFramesSatisfyInvariants : knownCommand 11 = true := by decide
theorem witness_FrParseUnpacksHeader :
    (onA [1, 2]).port.a.length < 3 ∧ (onA [0xFF, 0x80, 0xE5]).port.a = 0xFF :: 0x80 :: 0xE5 :: [] := by
  decide
theorem witness_FrValidChecksInOrder :
    (0 < 1 ∧ 1 < 2 ^ 24 ∧ 0 < 2 ^ 24 - 1) ∧ (onA [7, 0x11] [0x11, 7, 0x20]).port.a.length < 3 ∧
    (3 ≤ (onA [7, 0x11, 0x80] [0x11, 7]).port.a.length ∧
      (onA [7, 0x11, 0x80] [0x11, 7]).port.b.length < 3) ∧
    (onA [7, 0x11, 0x80] [0x11, 7, 0xA0]).port.a = 7 :: 0x11 :: 0x80 :: [] ∧
    (onA [7, 0x11, 0x80] [0x11, 7, 0xA0]).port.b = 0x11 :: 7 :: 0xA0 :: [] := by decide
theorem witness_FrameModelLaws :
    knownCommand 0 = true ∧ knownCommand 2 = true ∧ (0#5) ≠ 2#5 := by decide
/-- A request with one byte of payload in a machine of capacity 6. -/
theorem witness_TransmitThenReceiveIsIdentity :
    configWf (State.powerOn (capped 6)).cfg = true ∧ (State.powerOn (capped 6)).fault = none ∧
    (State.powerOn (capped 6)).buf = [] ∧ (State.powerOn (capped 6)).ep = false ∧
    (∀ k, (State.powerOn (capped 6)).cfg.bufCap = some k → ([0x7D] : Bytes).length + 5 ≤ k) ∧
    knownCommand 2 = true :=
  ⟨by decide +kernel, rfl, rfl, rfl, by simp [capped], by decide⟩

/-! #### Fixed point -/

/-- t = 0, t = 32 and t = 33. -/
theorem witness_QFormatWidth : sigWidth ⟨false, 0, 0⟩ = 0 ∧ sigWidth ⟨true, 31, 0⟩ = 32 ∧
    32 < sigWidth ⟨true, 31, 1⟩ := by decide
theorem witness_QRangeIsRepresentableRange :
    hasWidth uq8x8 = true ∧ sigWidth uq8x8 = qWidth uq8x8 := by decide
theorem witness_QEncOfFinite :
    hasWidth q14x18 = true ∧ real64 (onF 0x408F400000000000#64).port.x.f64 = .finite 1000 := by
  decide +kernel
theorem witness_QEncOfNonFinite : hasWidth q14x18 = true ∧
    real64 (onF 0x7FF8000000000000#64).port.x.f64 = .nan ∧
    real64 (onF 0x7FF0000000000000#64).port.x.f64 = .inf false ∧
    real64 (onF 0xFFF0000000000000#64).port.x.f64 = .inf true := by decide +kernel
/-- The patterns 2^W - 1 and 2^W of UQ8.8. -/
theorem witness_QDecOfPattern : hasWidth uq8x8 = true ∧
    (onU 0xFFFF).port.x.u32.toNat < 2 ^ qWidth uq8x8 ∧
    2 ^ qWidth uq8x8 ≤ (onU 0x10000).port.x.u32.toNat := by decide
/-- X = lo = -8192, just in range, and X = -10000 and 8192, outside it. -/
theorem witness_QRoundTrip : hasWidth q14x18 = true ∧
    (real64 (onF 0xC0C0000000000000#64).port.x.f64 = .finite (-8192) ∧
      qLo q14x18 ≤ -8192 ∧ -8192 ≤ qHi q14x18) ∧
    (real64 (onF 0xC0C3880000000000#64).port.x.f64 = .finite (-10000) ∧ -10000 < qLo q14x18) ∧
    (real64 (onF 0x40C0000000000000#64).port.x.f64 = .finite 8192 ∧ qHi q14x18 < 8192) := by
  decide +kernel
theorem witness_QDecValuesAreBinary64 :
    hasWidth ⟨true, 3, 2⟩ = true ∧ 0xFF < 2 ^ qWidth ⟨true, 3, 2⟩ := by decide
theorem witness_TwosComplementBijection :
    hasWidth q14x18 = true ∧ q14x18.signed = true ∧ sigWidth q14x18 = qWidth q14x18 ∧
    (-2 ^ (qWidth q14x18 - 1) ≤ (-2147483648 : Int) ∧
      (-2147483648 : Int) < 2 ^ (qWidth q14x18 - 1)) ∧
    4294967295 < 2 ^ qWidth q14x18 := by decide
/-- The values 2^8 - 1 and 2^8 in one byte. -/
theorem witness_LePutWritesLittleEndian :
    (onU 0xFF).port.x.u32.toNat < 2 ^ (8 * FieldWidth.w1.bytes) ∧
    2 ^ (8 * FieldWidth.w1.bytes) ≤ (onU 0x100).port.x.u32.toNat := by decide
/-- The last 4 bytes of a string, and one byte past them. -/
theorem witness_LeGetReadsLittleEndian :
    (1#16).toNat + FieldWidth.w4.bytes ≤ (onA [2, 0, 0, 0xA0, 0x0F]).port.a.length ∧
    (onA [2, 0, 0, 0xA0, 0x0F]).port.a.length < (2#16).toNat + FieldWidth.w4.bytes := by decide
theorem witness_LeGetReadsBackLePut :
    (onU 0xFFFFFFFF).port.x.u32.toNat < 2 ^ (8 * FieldWidth.w4.bytes) ∧
    ([2] : Bytes).length = (1#16).toNat := by decide

/-! #### Telemetry -/

/-- TEMP of the example profile. -/
def exTemp : BlockDesc := ⟨.temp, 0x02#8, 8, exTmTemp.fields⟩

theorem witness_TmDecReadsLayout :
    configWf (onA [0x64, 0, 0xFF, 0xFF, 0, 0x10, 0, 0]).cfg = true ∧
    exTemp ∈ tmBlocks (onA [0x64, 0, 0xFF, 0xFF, 0, 0x10, 0, 0]).cfg ∧
    exTemp.len ≤ (onA [0x64, 0, 0xFF, 0xFF, 0, 0x10, 0, 0]).port.a.length := by decide +kernel
theorem witness_TmDecErrorOrder : configWf (onA []).cfg = true ∧ (0 < 1 ∧ 1 < 2 ^ 16) ∧
    (∀ b ∈ tmBlocks (onA []).cfg, b.id ≠ 0x09#8) ∧
    (exTemp ∈ tmBlocks (onA []).cfg ∧ exTemp.id = 0x02#8 ∧
      (onA [1, 2, 3, 4, 5, 6, 7]).port.a.length < exTemp.len) := by decide +kernel
theorem witness_TmDecPrefixLaw : configWf (onA []).cfg = true ∧ exTemp ∈ tmBlocks (onA []).cfg ∧
    exTemp.len ≤ ([0x64, 0, 0xFF, 0xFF, 0, 0x10, 0, 0] : Bytes).length := by decide +kernel
/-- SPEED, CURRENT, TORQUE, PWM and a code of no mode. -/
theorem witness_SpProjByMode : configWf (onU 0x80000000).cfg = true ∧
    (0x01#8 = (onU 0).cfg.modeCurrent ∧ 0x03#8 = (onU 0).cfg.modeTorque ∧
      0x04#8 = (onU 0).cfg.modePwm) ∧
    0x05#8 ∉ [0x02#8, (onU 0).cfg.modeCurrent, (onU 0).cfg.modeTorque, (onU 0).cfg.modePwm] := by
  decide +kernel
/-- SPEED at 1000, TORQUE at its lo of -512, and PWM at -100. -/
theorem witness_SetpointTravelsThroughAppCmd : configWf (onF 0).cfg = true ∧
    (real64 (onF 0x408F400000000000#64).port.x.f64 = .finite 1000 ∧
      qLo ⟨true, 13, 18⟩ ≤ 1000 ∧ 1000 ≤ qHi ⟨true, 13, 18⟩) ∧
    ((0x03#8 = (onF 0).cfg.modeTorque ∧
        real64 (onF 0xC080000000000000#64).port.x.f64 = .finite (-512)) ∧
      qLo ⟨true, 9, 22⟩ ≤ -512 ∧ -512 ≤ qHi ⟨true, 9, 22⟩) ∧
    ((0x04#8 = (onF 0).cfg.modePwm ∧
        real64 (onF 0xC059000000000000#64).port.x.f64 = .finite (-100)) ∧
      qLo ⟨true, 31, 0⟩ ≤ -100 ∧ -100 ≤ qHi ⟨true, 31, 0⟩) := by decide +kernel

theorem witness_RequestPayloadFieldsReadBack :
    (.w4, 1, 0x0FA00000) ∈ (CommandRequest.appCmd 0x02 0x0FA00000).fields ∧
    (CommandRequest.appCmd 0x02 0x0FA00000).command ≠ .tripLcl := by decide
theorem witness_AppTmReplyDecodes : configWf (onA []).cfg = true ∧
    replyShape (onA []).cfg (.appTm 0x02) [0x64, 0, 0xFF, 0xFF, 0, 0x10, 0, 0] = true := by
  decide +kernel

/-! #### Results and state -/

theorem witness_StatelessOperationsReturnFixedResult :
    Instr.frParse ≠ .frmFeed ∧ Instr.frParse ≠ .frmRst ∧
    (onA [7, 0x11, 0x80]).cfg = .exHdlc ∧
    (midFrame [1] true [7, 0x11, 0x80]).port = (onA [7, 0x11, 0x80]).port := by decide +kernel
theorem witness_OnlyFramerWritesState :
    (∃ t, exec .ckStrip (midFrame [1] true [7]) = .next t ∧ t.buf = [1] ∧ t.ep = true) ∧
    ∃ t, exec .frmRst (overflowed 2) = .next t ∧ (overflowed 2).fault ≠ none :=
  ⟨⟨_, rfl, rfl, rfl⟩, _, rfl, by decide⟩
/-- An error with a payload, and an illegal FRM_FEED. -/
theorem witness_ErrorsArePrecise :
    (∃ t, runWord 0x33000000#32 (onA [7, 0x11, 0x80] [0x11, 7, 0, 0xAA]) = .next t ∧
      t.results = [] ++ [{ status := 0x02, r := [0xAA] }]) ∧
    ∃ t, runWord 0x02000001#32 (midFrame [0x41] false [0x7E]) = .next t ∧
      t.results = [] ++ [{ status := 0x06 }] := ⟨⟨_, rfl, rfl⟩, _, rfl, rfl⟩
/-- Q_ENC of lo, which does not clamp, and of an infinity, which does. -/
theorem witness_RangeOnlyFromClampingQEnc :
    lastOf (exec (.qEnc q14x18) (onF 0xC0C0000000000000#64)) =
      some { y := .int 0x80000000, range := false } ∧
    lastOf (exec (.qEnc q14x18) (onF 0xFFF0000000000000#64)) =
      some { y := .int 0x80000000, range := true } := by decide +kernel

end Sys2Proof.Tests
end

/-! PROOFS. 10_state.md: what a result record may hold, what an instruction writes, and the invariant
of the machine (O49, O50, O52, O53, O54, O58). -/

namespace Sys2Proof.Machine

/-! ### The shape of a result record -/

/-- The records an operation returns (10_state.md R25, R26; 60_exceptions.md R150 to R152), indexed
by their RANGE: a success with non-empty frames, an error without a detail, an error with detail 1 or
2 (R151), and E_NACK with its payload. -/
inductive Result.Shape : Bool → Result → Prop
  | success (g : Bool) (r : Bytes) (y : YVal) (frames : List Bytes) (rec : Record)
      (h : [] ∉ frames) :
      Shape g { r := r, y := y, range := g, frames := frames, record := rec }
  | error (e : Status) (h : e ≠ .eMismatch) : Shape false (errorResult e 0)
  | detailed (e : Status) (d : Byte) (he : e = .eMismatch ∨ e = .eFraming) (hd : d = 1#8 ∨ d = 2#8) :
      Shape false (errorResult e d)
  | nack (p : Bytes) : Shape false { errorResult .eNack 0 with r := p }

theorem Result.Shape.range_eq {g : Bool} {r : Result} (h : r.Shape g) : r.range = g := by
  cases h <;> rfl

theorem Status.code_le (e : Status) : e.code.toNat ≤ 0x0B := by
  cases e <;> decide

theorem Status.code_eq_mismatch_iff (e : Status) : e.code = 0x03#8 ↔ e = .eMismatch := by
  cases e <;> decide

theorem Result.Shape.sound {g : Bool} {r : Result} (h : r.Shape g) : r.sound := by
  cases h with
  | success _ _ _ _ _ h => simp [Result.sound, h]
  | error e h =>
    simp [Result.sound, errorResult, e.code_le, e.code_eq_mismatch_iff, h]
  | detailed e d he hd =>
    have hd0 : d ≠ 0#8 := by rcases hd with rfl | rfl <;> decide
    rcases he with rfl | rfl <;> simp [Result.sound, errorResult, Status.code, hd0, hd]
  | nack p => simp [Result.sound, errorResult, Status.code]

/-! ### When an instruction clamps -/

/-- Whether an instruction clamps its input: Q_ENC of a descriptor with a width, where X.f64 is
outside [lo, hi] (10_state.md R26; 43_fixed_point.md R134). -/
def clamps (i : Instr) (p : Operands) : Bool :=
  match i with
  | .qEnc f => hasWidth f && rangeFlag f (real64 p.x.f64)
  | _ => false

theorem rangeFlag_iff (f : QFormat) (v : Real64) : rangeFlag f v = true ↔
    (∃ neg, v = .inf neg) ∨ ∃ x, v = .finite x ∧ (x < qLo f ∨ qHi f < x) := by
  cases v <;> simp [rangeFlag]

theorem clamps_iff (i : Instr) (p : Operands) : clamps i p = true ↔
    ∃ f : QFormat, i = .qEnc f ∧ hasWidth f = true ∧
      ((∃ neg, real64 p.x.f64 = .inf neg) ∨
        ∃ x, real64 p.x.f64 = .finite x ∧ (x < qLo f ∨ qHi f < x)) := by
  cases i <;> simp [clamps, rangeFlag_iff]

/-- Q_ENC answers no value exactly for NaN (43_fixed_point.md R134). -/
theorem saturate_eq_none_iff (f : QFormat) (v : Real64) : saturate f v = none ↔ v = .nan := by
  cases v <;> simp [saturate]

/-! ### The stateless units -/

section Stateless

/-- Wherever the configuration is c and the operands are p, i adds the record r and changes nothing
else (10_state.md R23). -/
def Answers (i : Instr) (c : Config) (p : Operands) (r : Result) : Prop :=
  ∀ s : State, s.cfg = c → s.port = p → exec i s = .next (s.ret r)

variable (c : Config) (p : Operands)

theorem qEnc_answers (f : QFormat) :
    ∃ r, Answers (.qEnc f) c p r ∧ r.Shape (clamps (.qEnc f) p) := by
  cases hw : hasWidth f with
  | false =>
    refine ⟨errorResult .eFormat 0, ?_, ?_⟩
    · rintro s - -
      simp [exec, execQEnc, hw, State.raise_eq_ret]
    · simpa [clamps, hw] using Result.Shape.error .eFormat nofun
  | true =>
    cases hy : saturate f (real64 p.x.f64) with
    | none =>
      refine ⟨errorResult .eNan 0, ?_, ?_⟩
      · rintro s - rfl
        simp [exec, execQEnc, hw, hy, State.raise_eq_ret]
      · have hnan := (saturate_eq_none_iff f _).mp hy
        simpa [clamps, hnan, rangeFlag] using Result.Shape.error .eNan nofun
    | some y =>
      refine ⟨{ y := .int (toPattern (qWidth f) (trunc (y * pow2 f.fb.toNat)))
                range := clamps (.qEnc f) p }, ?_, .success _ _ _ _ _ nofun⟩
      rintro s - rfl
      simp [exec, execQEnc, clamps, hw, hy]

theorem qDec_answers (f : QFormat) :
    ∃ r, Answers (.qDec f) c p r ∧ r.Shape false := by
  cases hw : hasWidth f with
  | false =>
    refine ⟨errorResult .eFormat 0, ?_, .error _ nofun⟩
    rintro s - -
    simp [exec, execQDec, hw, State.raise_eq_ret]
  | true =>
    by_cases hx : 2 ^ qWidth f ≤ p.x.u32.toNat
    · refine ⟨errorResult .eOperand 0, ?_, .error _ nofun⟩
      rintro s - rfl
      simp [exec, execQDec, hw, hx, State.raise_eq_ret]
    · refine ⟨{ y := .rat (qValue f p.x.u32.toNat) }, ?_, .success _ _ _ _ _ nofun⟩
      rintro s - rfl
      simp [exec, execQDec, hw, hx]

theorem frValid_answers : ∃ r, Answers .frValid c p r ∧ r.Shape false := by
  cases hq : parse p.a with
  | none =>
    refine ⟨errorResult .eFraming 1, ?_, .detailed _ _ (.inr rfl) (.inl rfl)⟩
    rintro s - rfl
    simp [exec, execFrValid, hq, State.raise_eq_ret]
  | some q =>
    cases hp : parse p.b with
    | none =>
      refine ⟨errorResult .eFraming 2, ?_, .detailed _ _ (.inr rfl) (.inr rfl)⟩
      rintro s - rfl
      simp [exec, execFrValid, hq, hp, State.raise_eq_ret]
    | some f =>
      by_cases hcmd : cmdBits f.control = cmdBits q.control
      · cases hreq : reqBit f.control with
        | true =>
          refine ⟨errorResult .eMismatch 2, ?_, .detailed _ _ (.inl rfl) (.inr rfl)⟩
          rintro s - rfl
          simp [exec, execFrValid, hq, hp, hcmd, hreq, State.raise_eq_ret]
        | false =>
          cases hack : ackBit f.control with
          | true =>
            refine ⟨{}, ?_, .success _ _ _ _ _ nofun⟩
            rintro s - rfl
            simp [exec, execFrValid, hq, hp, hcmd, hreq, hack]
          | false =>
            refine ⟨{ errorResult .eNack 0 with r := f.payload }, ?_, .nack _⟩
            rintro s - rfl
            simp [exec, execFrValid, hq, hp, hcmd, hreq, hack]
      · refine ⟨errorResult .eMismatch 1, ?_, .detailed _ _ (.inl rfl) (.inl rfl)⟩
        rintro s - rfl
        simp [exec, execFrValid, hq, hp, hcmd, State.raise_eq_ret]

theorem tmDec_answers (sel : Byte) : ∃ r, Answers (.tmDec sel) c p r ∧ r.Shape false := by
  cases hb : findBlock c sel with
  | none =>
    refine ⟨errorResult .eUnknownBlock 0, ?_, .error _ nofun⟩
    rintro s rfl -
    simp [exec, execTmDec, hb, State.raise_eq_ret]
  | some b =>
    by_cases hl : p.a.length < b.len
    · refine ⟨errorResult .eLength 0, ?_, .error _ nofun⟩
      rintro s rfl rfl
      simp [exec, execTmDec, hb, hl, State.raise_eq_ret]
    · cases hv : readFields p.a b.fields with
      | none =>
        refine ⟨errorResult .eLength 0, ?_, .error _ nofun⟩
        rintro s rfl rfl
        simp [exec, execTmDec, hb, hv, State.raise_eq_ret]
      | some vs =>
        refine ⟨{ record := .block b.name vs }, ?_, .success _ _ _ _ _ nofun⟩
        rintro s rfl rfl
        simp [exec, execTmDec, hb, hl, hv]

/-- A frame with any control byte, as FR_MKREQ and FR_MKREP build it. -/
theorem build_answers (dest src : BitVec 7) (cmd : BitVec 5) (control : Byte) :
    ∃ r : Result, (∀ s : State, s.port = p → s.build dest src cmd control = s.ret r) ∧
      r.Shape false := by
  cases hk : knownCommand cmd with
  | false =>
    exact ⟨errorResult .eIllegalOp 0, fun s _ => s.build_of_unknown dest src cmd control hk,
      .error _ nofun⟩
  | true =>
    refine ⟨{ r := ser ⟨dest.setWidth 8, src.setWidth 8, control, p.a⟩ }, ?_,
      .success _ _ _ _ _ nofun⟩
    rintro s rfl
    exact s.build_of_known dest src cmd control hk

/-- Every operation but FRM_FEED and FRM_RST answers one record, fixed by the configuration and the
operands. -/
theorem exists_answers {i : Instr} (hfeed : i ≠ .frmFeed) (hrst : i ≠ .frmRst) :
    ∃ r, Answers i c p r ∧ r.Shape (clamps i p) := by
  cases i with
  | frmFeed => exact absurd rfl hfeed
  | frmRst => exact absurd rfl hrst
  | frmEnc =>
    exact ⟨{ r := frameEncode c p.a }, by rintro s rfl rfl; rfl, .success _ _ _ _ _ nofun⟩
  | ckAppend =>
    exact ⟨{ r := p.a ++ trailer c p.a }, by rintro s rfl rfl; rfl, .success _ _ _ _ _ nofun⟩
  | ckVerify =>
    exact ⟨{ y := .bool (verifies c p.a) }, by rintro s rfl rfl; rfl, .success _ _ _ _ _ nofun⟩
  | ckStrip =>
    by_cases h : p.a.length < 2
    · refine ⟨errorResult .eShort 0, ?_, .error _ nofun⟩
      rintro s - rfl
      simp [exec, execCkStrip, h, State.raise_eq_ret]
    · refine ⟨{ r := slice p.a 0 (p.a.length - 2) }, ?_, .success _ _ _ _ _ nofun⟩
      rintro s - rfl
      simp [exec, execCkStrip, h]
  | qEnc f => exact qEnc_answers c p f
  | qDec f => exact qDec_answers c p f
  | lePut n =>
    by_cases h : 2 ^ (8 * n.bytes) ≤ p.x.u32.toNat
    · refine ⟨errorResult .eOperand 0, ?_, .error _ nofun⟩
      rintro s - rfl
      simp [exec, execLePut, h, State.raise_eq_ret]
    · refine ⟨{ r := leBytes n.bytes p.x.u32.toNat }, ?_, .success _ _ _ _ _ nofun⟩
      rintro s - rfl
      simp [exec, execLePut, h]
  | leGet n ofs =>
    cases h : readField p.a ofs.toNat n with
    | none =>
      refine ⟨errorResult .eLength 0, ?_, .error _ nofun⟩
      rintro s - rfl
      simp [exec, execLeGet, h, State.raise_eq_ret]
    | some v =>
      refine ⟨{ y := .int v }, ?_, .success _ _ _ _ _ nofun⟩
      rintro s - rfl
      simp [exec, execLeGet, h]
  | frMkreq dest src cmd =>
    obtain ⟨r, hr, shape⟩ := build_answers p dest src cmd (requestControl cmd)
    exact ⟨r, fun s _ hp => congrArg _ (hr s hp), shape⟩
  | frMkrep dest src cmd ack =>
    obtain ⟨r, hr, shape⟩ := build_answers p dest src cmd (replyControl cmd ack)
    exact ⟨r, fun s _ hp => congrArg _ (hr s hp), shape⟩
  | frParse =>
    cases h : parse p.a with
    | none =>
      refine ⟨errorResult .eFraming 0, ?_, .error _ nofun⟩
      rintro s - rfl
      simp [exec, execFrParse, h, State.raise_eq_ret]
    | some f =>
      refine ⟨{ r := f.payload, record := .frame (frameRec f) }, ?_, .success _ _ _ _ _ nofun⟩
      rintro s - rfl
      simp [exec, execFrParse, h]
  | frValid => exact frValid_answers c p
  | tmDec sel => exact tmDec_answers c p sel
  | spProj sel =>
    cases h : setpointFormat c sel with
    | none =>
      refine ⟨errorResult .eMode 0, ?_, .error _ nofun⟩
      rintro s rfl -
      simp [exec, execSpProj, h, State.raise_eq_ret]
    | some f =>
      refine ⟨{ y := .rat (qValue f p.x.u32.toNat) }, ?_, .success _ _ _ _ _ nofun⟩
      rintro s rfl rfl
      simp [exec, execSpProj, h]

end Stateless

/-! ### What any instruction writes -/

variable {s t : State} {i : Instr}

theorem State.ret_inj {r r' : Result} (h : s.ret r = s.ret r') : r = r' := by
  simpa [State.ret] using h

/-- The record of a stateless operation has the shape its operands give it. -/
theorem shape_of_exec_eq_ret (hfeed : i ≠ .frmFeed) (hrst : i ≠ .frmRst) {r : Result}
    (h : exec i s = .next (s.ret r)) : r.Shape (clamps i s.port) := by
  obtain ⟨r', answers, shape⟩ := exists_answers s.cfg s.port hfeed hrst
  have heq : s.ret r = s.ret r' := by simpa [h] using answers s rfl rfl
  exact State.ret_inj heq ▸ shape

/-- What FRM_FEED and FRM_RST return: a success with the frames emitted, none of them empty. -/
theorem frames_shape {frames : List Bytes} (h : [] ∉ frames) :
    Result.Shape false { frames := frames } :=
  .success _ _ _ _ _ h

/-- An instruction adds no record, or one of the shape its operands give it. -/
theorem exec_results (h : exec i s = .next t) :
    t.results = s.results ∨ ∃ r, t.results = s.results ++ [r] ∧ r.Shape (clamps i s.port) := by
  rcases exec_cases i s with ⟨hfeed, hrst, r, e⟩ | ⟨rfl, e⟩ | ⟨rfl, -, e⟩ | ⟨rfl, -, e⟩
  all_goals obtain rfl : _ = t := Host.Outcome.next.inj (e.symm.trans h)
  · exact .inr ⟨r, rfl, shape_of_exec_eq_ret hfeed hrst e⟩
  · exact .inr ⟨{}, rfl, frames_shape List.not_mem_nil⟩
  · exact .inr ⟨_, rfl, frames_shape (feed_frames_nonempty (by simp) _)⟩
  · exact .inl rfl

/-- A FAULT that is set stays through a chunk. -/
theorem feed_fault_of_set {c : Config} {d : Decoder} (h : d.fault ≠ none) (x : Bytes) :
    (feed c d x).fault = d.fault := by
  rw [feed_of_fault (Option.isSome_iff_ne_none.mpr h)]

/-! ### The invariant -/

theorem State.Inv.ret (h : s.Inv) {r : Result} (hr : r.sound) : (s.ret r).Inv := by
  obtain ⟨wf, cap, fault, sound⟩ := h
  refine ⟨wf, cap, fault, fun x hx => ?_⟩
  rcases List.mem_append.mp hx with hx | hx
  · exact sound x hx
  · exact List.mem_singleton.mp hx ▸ hr

theorem State.Inv.withDecoder (h : s.Inv) {d : Decoder}
    (cap : fitsCap s.cfg d.buf.length = true) (fault : d.fault ≠ none → s.cfg.bufCap ≠ none) :
    (s.withDecoder d).Inv := by
  obtain ⟨wf, -, -, sound⟩ := h
  exact ⟨wf, fitsCap_iff.mp cap, fault, sound⟩

/-- Taking up an operation writes nothing the invariant speaks of. -/
theorem State.Inv.issue (h : s.Inv) (q : Request) (rest : List Request) : (s.issue q rest).Inv := h

theorem State.Inv.withDecoder_feed (h : s.Inv) (x : Bytes) :
    (s.withDecoder (feed s.cfg s.decoder x)).Inv := by
  obtain ⟨-, cap, fault, -⟩ := id h
  refine h.withDecoder (feed_buf_fits (fitsCap_iff.mpr cap) x) fun hf hc => ?_
  rw [feed_fault_of_no_cap hc] at hf
  exact fault hf hc

theorem State.Inv.withDecoder_reset (h : s.Inv) :
    (s.withDecoder ⟨[], false, s.fault, []⟩).Inv := by
  obtain ⟨-, cap, fault, -⟩ := id h
  exact h.withDecoder (fitsCap_iff.mpr fun _ _ => Nat.zero_le _) fault

theorem exec_keeps_inv (hs : s.Inv) (h : exec i s = .next t) : t.Inv := by
  rcases exec_cases i s with ⟨hfeed, hrst, r, e⟩ | ⟨rfl, e⟩ | ⟨rfl, -, e⟩ | ⟨rfl, -, e⟩
  all_goals obtain rfl : _ = t := Host.Outcome.next.inj (e.symm.trans h)
  · exact hs.ret (shape_of_exec_eq_ret hfeed hrst e).sound
  · exact hs.withDecoder_reset.ret (frames_shape List.not_mem_nil).sound
  · exact (hs.withDecoder_feed _).ret (frames_shape (feed_frames_nonempty (by simp) _)).sound
  · exact hs.withDecoder_feed _

theorem runWord_keeps_inv {w : OpWord} (hs : s.Inv) (h : runWord w s = .next t) : t.Inv := by
  unfold runWord at h
  split at h
  · exact exec_keeps_inv hs h
  · obtain rfl := Host.Outcome.next.inj h
    exact hs.ret (Result.Shape.error .eIllegalOp nofun).sound

theorem powerOn_inv {c : Config} (h : configWf c = true) : (State.powerOn c).Inv :=
  ⟨h, fun _ _ => Nat.zero_le _, fun hf => absurd rfl hf, by simp⟩

theorem configWf_initial : configWf Config.initial = true := by decide +kernel

/-- With no operation issued the block waits (70_reset_and_hazards.md R161; log 5). -/
theorem step_of_idle (wf : configWf s.cfg = true) (hf : s.fault = none) (hp : s.pending = []) :
    step s = .next s := by
  simp [step, wf, hf, hp]

end Sys2Proof.Machine

namespace Sys2Proof.Proofs

open Sys2Proof.Machine

/-- Settles O52: a step waits or runs one word, and a word adds a record of one of the shapes an
operation returns and writes the decoder only by feeding or resetting it. -/
theorem stepKeepsInvariant : Obligations.StepKeepsInvariant := by
  unfold Obligations.StepKeepsInvariant
  intro s t hs h
  rcases step_cases s with ⟨-, e⟩ | ⟨-, f, -, e⟩ | ⟨-, -, -, e⟩ | ⟨-, -, q, rest, -, e⟩
  · cases e.symm.trans h
  · cases e.symm.trans h
  · exact Host.Outcome.next.inj (e.symm.trans h) ▸ hs
  · exact runWord_keeps_inv (hs.issue q rest) (e.symm.trans h)

/-- Settles O49, by the record each stateless operation answers. -/
theorem statelessOperationsReturnFixedResult :
    Obligations.StatelessOperationsReturnFixedResult := by
  unfold Obligations.StatelessOperationsReturnFixedResult
  intro i hfeed hrst c p
  obtain ⟨r, answers, -⟩ := exists_answers c p hfeed hrst
  exact ⟨r, answers⟩

/-- Settles O50, by the four answers of an instruction; a set FAULT survives FRM_FEED because no
byte is consumed behind it. -/
theorem onlyFramerWritesState : Obligations.OnlyFramerWritesState := by
  unfold Obligations.OnlyFramerWritesState
  intro i s t h
  rcases exec_cases i s with ⟨-, -, r, e⟩ | ⟨rfl, e⟩ | ⟨rfl, -, e⟩ | ⟨rfl, -, e⟩
  all_goals obtain rfl : _ = t := Host.Outcome.next.inj (e.symm.trans h)
  · exact ⟨rfl, rfl, rfl, fun _ => rfl, fun _ => rfl, fun _ _ => ⟨rfl, rfl⟩⟩
  · exact ⟨rfl, rfl, rfl, fun _ => rfl, fun _ => rfl, fun _ hrst => absurd rfl hrst⟩
  all_goals
    exact ⟨rfl, rfl, rfl, fun hf => feed_fault_of_set hf _, fun hfeed => absurd rfl hfeed,
      fun hfeed => absurd rfl hfeed⟩

/-- Settles O58: the record's RANGE is the `clamps` of its instruction. -/
theorem rangeOnlyFromClampingQEnc : Obligations.RangeOnlyFromClampingQEnc := by
  unfold Obligations.RangeOnlyFromClampingQEnc
  intro i s t r h hr
  rcases exec_results h with e | ⟨r', e, shape⟩
  · simp [hr] at e
  · obtain rfl : r = r' := by simpa [hr] using e
    rw [shape.range_eq, clamps_iff]

/-- Settles O53. -/
theorem powerOnSatisfiesInvariant : Obligations.PowerOnSatisfiesInvariant := by
  unfold Obligations.PowerOnSatisfiesInvariant
  exact ⟨fun _ h => powerOn_inv h, powerOn_inv configWf_initial⟩

/-- Settles O54, the wait by `step_of_idle`. -/
theorem resetStateOfDecoder : Obligations.ResetStateOfDecoder := by
  unfold Obligations.ResetStateOfDecoder
  exact ⟨fun c => ⟨rfl, rfl, rfl, rfl, fun h => step_of_idle h rfl rfl⟩, rfl, rfl, rfl⟩

end Sys2Proof.Proofs

/-! PROOFS. 30_encoding.md: the decoder against the encoder, the clauses of R57 and the opcode
table; then the wire format, what the operations answer on operands they accept, and the payload shapes
(O1 to O5, O26, O29, O46 to O48). -/

namespace Sys2Proof

section Fields

/-! ### A word as the concatenation of its fields -/

/-- A field of m + n bits is its upper m bits followed by its lower n. -/
theorem field_eq_append_iff {k m n lo : Nat} {w : BitVec k} {a : BitVec m} {b : BitVec n} :
    w.extractLsb' lo (m + n) = a ++ b ↔
      w.extractLsb' (lo + n) m = a ∧ w.extractLsb' lo n = b := by
  rw [← BitVec.extractLsb'_append_extractLsb'_eq_extractLsb' rfl]
  refine ⟨fun h => ⟨?_, ?_⟩, fun ⟨ha, hb⟩ => ha ▸ hb ▸ rfl⟩
  · simpa [BitVec.extractLsb'_append_eq_left] using congrArg (BitVec.extractLsb' n m) h
  · simpa [BitVec.extractLsb'_append_eq_right] using congrArg (BitVec.extractLsb' 0 n) h

theorem eq_iff_field_eq {k : Nat} {w v : BitVec k} : w = v ↔ w.extractLsb' 0 k = v := by
  rw [BitVec.extractLsb'_eq_self]

/-- A one-bit field, as the flag it stands for. -/
theorem eq_ofBool_iff {x : BitVec 1} {b : Bool} : x = BitVec.ofBool b ↔ decide (x = 1#1) = b := by
  revert x b; decide

variable {w : OpWord} {op : BitVec 8}

/-- The fields of a word of format N (R50). -/
theorem eq_encodeN_iff : w = encodeN op ↔ opField w = op ∧ w.extractLsb' 0 24 = 0#24 :=
  eq_iff_field_eq.trans (field_eq_append_iff (m := 8) (n := 24))

/-- The fields of a word of format Q (R51). -/
theorem eq_encodeQ_iff {fmt : QFormat} : w = encodeQ op fmt ↔
    opField w = op ∧ w.extractLsb' 17 7 = 0#7 ∧ w.extractLsb' 16 1 = BitVec.ofBool fmt.signed ∧
      w.extractLsb' 8 8 = fmt.ib ∧ w.extractLsb' 0 8 = fmt.fb := by
  refine (eq_iff_field_eq (k := 8 + 7 + 1 + 8 + 8)).trans ?_
  simp only [encodeQ, field_eq_append_iff, and_assoc]
  rfl

/-- The fields of a word of format L (R52). -/
theorem eq_encodeL_iff {n : FieldWidth} {ofs : BitVec 16} : w = encodeL op n ofs ↔
    opField w = op ∧ w.extractLsb' 22 2 = selOfWidth n ∧ w.extractLsb' 16 6 = 0#6 ∧
      w.extractLsb' 0 16 = ofs := by
  refine (eq_iff_field_eq (k := 8 + 2 + 6 + 16)).trans ?_
  simp only [encodeL, field_eq_append_iff, and_assoc]
  rfl

/-- The fields of a word of format F (R53). -/
theorem eq_encodeF_iff {dest src : BitVec 7} {cmd : BitVec 5} {ack : Bool} :
    w = encodeF op dest src cmd ack ↔
      opField w = op ∧ w.extractLsb' 20 4 = 0#4 ∧ w.extractLsb' 19 1 = BitVec.ofBool ack ∧
        w.extractLsb' 14 5 = cmd ∧ w.extractLsb' 7 7 = src ∧ w.extractLsb' 0 7 = dest := by
  refine (eq_iff_field_eq (k := 8 + 4 + 1 + 5 + 7 + 7)).trans ?_
  simp only [encodeF, field_eq_append_iff, and_assoc]
  rfl

/-- The fields of a word of format T (R54). -/
theorem eq_encodeT_iff {sel : Byte} : w = encodeT op sel ↔
    opField w = op ∧ w.extractLsb' 8 16 = 0#16 ∧ w.extractLsb' 0 8 = sel := by
  refine (eq_iff_field_eq (k := 8 + 16 + 8)).trans ?_
  simp only [encodeT, field_eq_append_iff, and_assoc]
  rfl

/-! ### What each format's decoder answers -/

variable {i j : Instr}

theorem decodeN_eq_ok_iff : decodeN w j = .ok i ↔ i = j ∧ w = encodeN (opField w) := by
  unfold decodeN
  rw [eq_encodeN_iff]
  split <;> simp_all [eq_comm]

theorem decodeQ_eq_ok_iff {mk : QFormat → Instr} :
    decodeQ w mk = .ok i ↔ ∃ fmt, i = mk fmt ∧ w = encodeQ (opField w) fmt := by
  unfold decodeQ
  simp only [eq_encodeQ_iff, eq_ofBool_iff]
  split
  next h =>
    simp only [h, Except.ok.injEq, true_and]
    refine ⟨fun e => ⟨_, e.symm, rfl, rfl, rfl⟩, ?_⟩
    rintro ⟨⟨signed, ib, fb⟩, rfl, rfl, rfl, rfl⟩
    rfl
  next h => simp [h]

theorem widthOfSel_eq_some_iff {sel : BitVec 2} {n : FieldWidth} :
    widthOfSel sel = some n ↔ sel = selOfWidth n := by
  cases n <;> revert sel <;> decide

theorem decodeL_eq_ok_iff {f : FieldWidth → BitVec 16 → Except Illegal Instr} :
    decodeL w f = .ok i ↔ ∃ n ofs, f n ofs = .ok i ∧ w = encodeL (opField w) n ofs := by
  unfold decodeL
  simp only [eq_encodeL_iff, ← widthOfSel_eq_some_iff]
  split
  next h =>
    cases hn : widthOfSel (w.extractLsb' 22 2) with
    | none => simp
    | some n => simp [h]
  next h => simp [h]

theorem decodeF_eq_ok_iff {f : BitVec 7 → BitVec 7 → BitVec 5 → Bool → Except Illegal Instr} :
    decodeF w f = .ok i ↔ ∃ dest src cmd ack, knownCommand cmd = true ∧
      f dest src cmd ack = .ok i ∧ w = encodeF (opField w) dest src cmd ack := by
  unfold decodeF
  simp only [eq_encodeF_iff, eq_ofBool_iff]
  split
  next h =>
    split
    next hk =>
      simp only [h, true_and]
      refine ⟨fun e => ⟨_, _, _, _, hk, e, rfl, rfl, rfl, rfl⟩, ?_⟩
      rintro ⟨_, _, _, _, -, e, rfl, rfl, rfl, rfl⟩
      exact e
    next hk =>
      simp only [reduceCtorEq, false_iff, not_exists, not_and]
      rintro _ _ _ _ hc - - - - rfl
      exact absurd hc hk
  next h => simp [h]

theorem decodeT_eq_ok_iff {mk : Byte → Instr} :
    decodeT w mk = .ok i ↔ ∃ sel, i = mk sel ∧ w = encodeT (opField w) sel := by
  unfold decodeT
  simp only [eq_encodeT_iff]
  split <;> simp_all [eq_comm]

theorem lePutOf_eq_ok_iff {n : FieldWidth} {ofs : BitVec 16} :
    lePutOf n ofs = .ok i ↔ i = .lePut n ∧ ofs = 0#16 := by
  by_cases h : ofs = 0#16 <;> simp [lePutOf, h, eq_comm]

theorem frMkreqOf_eq_ok_iff {dest src : BitVec 7} {cmd : BitVec 5} {ack : Bool} :
    frMkreqOf dest src cmd ack = .ok i ↔ i = .frMkreq dest src cmd ∧ ack = false := by
  cases ack <;> simp [frMkreqOf, eq_comm]

end Fields

section Map

/-! ### The opcode map -/

open Machine (opsN opsQ opsL opsF opsT)

/-- The opcode map of R55 by format: which decoder reads a word, and what the words of the
instructions it answers look like. -/
inductive ReadBy (w : OpWord) : Except Illegal Instr → Prop
  | formatN (i : Instr) (hop : opField w ∈ opsN) (hwf : i.wf = true)
      (henc : encode i = encodeN (opField w)) : ReadBy w (decodeN w i)
  | formatQ (mk : QFormat → Instr) (hop : opField w ∈ opsQ) (hwf : ∀ fmt, (mk fmt).wf = true)
      (henc : ∀ fmt, encode (mk fmt) = encodeQ (opField w) fmt) : ReadBy w (decodeQ w mk)
  | lePut (hop : opField w = 0x22#8) : ReadBy w (decodeL w lePutOf)
  | leGet (hop : opField w = 0x23#8) : ReadBy w (decodeL w fun n ofs => .ok (.leGet n ofs))
  | frMkreq (hop : opField w = 0x30#8) : ReadBy w (decodeF w frMkreqOf)
  | frMkrep (hop : opField w = 0x31#8) : ReadBy w (decodeF w fun d s c a => .ok (.frMkrep d s c a))
  | formatT (mk : Byte → Instr) (hop : opField w ∈ opsT) (hwf : ∀ sel, (mk sel).wf = true)
      (henc : ∀ sel, encode (mk sel) = encodeT (opField w) sel) : ReadBy w (decodeT w mk)
  | unassigned (hop : opField w ∉ opsN ++ opsQ ++ opsL ++ opsF ++ opsT) :
      ReadBy w (.error .unassignedOp)

variable {w : OpWord} {i : Instr}

theorem readBy_ite {op : BitVec 8} {e e' : Except Illegal Instr} (h : opField w = op → ReadBy w e)
    (h' : opField w ≠ op → ReadBy w e') : ReadBy w (if opField w = op then e else e') := by
  split
  · exact h ‹_›
  · exact h' ‹_›

theorem readBy_of_opsN {op : BitVec 8} (h : opField w = op) (hop : op ∈ opsN) (hwf : i.wf = true)
    (henc : encode i = encodeN op) : ReadBy w (decodeN w i) :=
  .formatN i (h ▸ hop) hwf (h ▸ henc)

theorem readBy_of_opsQ {op : BitVec 8} {mk : QFormat → Instr} (h : opField w = op)
    (hop : op ∈ opsQ) (hwf : ∀ fmt, (mk fmt).wf = true)
    (henc : ∀ fmt, encode (mk fmt) = encodeQ op fmt) :
    ReadBy w (decodeQ w mk) :=
  .formatQ mk (h ▸ hop) hwf (h ▸ henc)

theorem readBy_of_opsT {op : BitVec 8} {mk : Byte → Instr} (h : opField w = op) (hop : op ∈ opsT)
    (hwf : ∀ sel, (mk sel).wf = true) (henc : ∀ sel, encode (mk sel) = encodeT op sel) :
    ReadBy w (decodeT w mk) :=
  .formatT mk (h ▸ hop) hwf (h ▸ henc)

/-- The decoder is the opcode map, its branches in the order of R55. -/
theorem decode_readBy (w : OpWord) : ReadBy w (decode w) := by
  unfold decode
  iterate 6 refine readBy_ite (readBy_of_opsN · (by decide) rfl rfl) fun _ => ?_
  iterate 2
    refine readBy_ite (readBy_of_opsQ · (by decide) (fun _ => rfl) fun _ => rfl) fun _ => ?_
  refine readBy_ite .lePut fun _ => ?_
  refine readBy_ite .leGet fun _ => ?_
  refine readBy_ite .frMkreq fun _ => ?_
  refine readBy_ite .frMkrep fun _ => ?_
  iterate 2 refine readBy_ite (readBy_of_opsN · (by decide) rfl rfl) fun _ => ?_
  iterate 2
    refine readBy_ite (readBy_of_opsT · (by decide) (fun _ => rfl) fun _ => rfl) fun _ => ?_
  refine .unassigned ?_
  simp only [opsN, opsQ, opsL, opsF, opsT, List.cons_append, List.nil_append, List.mem_cons,
    List.not_mem_nil, or_self, not_false_eq_true, *]

/-- A legal word is the word of the instruction it decodes to. -/
theorem eq_encode_of_decode (h : decode w = .ok i) : w = encode i ∧ i.wf = true := by
  have hr := decode_readBy w
  generalize decode w = e at h hr
  cases hr with
  | formatN j hop hwf henc =>
    obtain ⟨rfl, hw⟩ := decodeN_eq_ok_iff.mp h
    exact ⟨hw.trans henc.symm, hwf⟩
  | formatQ mk hop hwf henc =>
    obtain ⟨fmt, rfl, hw⟩ := decodeQ_eq_ok_iff.mp h
    exact ⟨hw.trans (henc fmt).symm, hwf fmt⟩
  | lePut hop =>
    obtain ⟨n, ofs, hi, hw⟩ := decodeL_eq_ok_iff.mp h
    obtain ⟨rfl, rfl⟩ := lePutOf_eq_ok_iff.mp hi
    exact ⟨hw.trans (by rw [hop]; rfl), rfl⟩
  | leGet hop =>
    obtain ⟨n, ofs, ⟨⟩, hw⟩ := decodeL_eq_ok_iff.mp h
    exact ⟨hw.trans (by rw [hop]; rfl), rfl⟩
  | frMkreq hop =>
    obtain ⟨dest, src, cmd, ack, hk, hi, hw⟩ := decodeF_eq_ok_iff.mp h
    obtain ⟨rfl, rfl⟩ := frMkreqOf_eq_ok_iff.mp hi
    exact ⟨hw.trans (by rw [hop]; rfl), hk⟩
  | frMkrep hop =>
    obtain ⟨dest, src, cmd, ack, hk, ⟨⟩, hw⟩ := decodeF_eq_ok_iff.mp h
    exact ⟨hw.trans (by rw [hop]; rfl), hk⟩
  | formatT mk hop hwf henc =>
    obtain ⟨sel, rfl, hw⟩ := decodeT_eq_ok_iff.mp h
    exact ⟨hw.trans (henc sel).symm, hwf sel⟩
  | unassigned hop => cases h

/-- A well-formed instruction decodes from its own word. -/
theorem decode_encode (h : i.wf = true) : decode (encode i) = .ok i := by
  cases i with
  | qEnc fmt | qDec fmt =>
    simp [encode, decode, (eq_encodeQ_iff.mp rfl).1, decodeQ_eq_ok_iff]
  | lePut n | leGet n ofs =>
    simp [encode, decode, (eq_encodeL_iff.mp rfl).1, decodeL_eq_ok_iff, lePutOf_eq_ok_iff]
  | frMkreq dest src cmd | frMkrep dest src cmd ack =>
    have hk : knownCommand cmd = true := h
    simp [encode, decode, (eq_encodeF_iff.mp rfl).1, decodeF_eq_ok_iff, frMkreqOf_eq_ok_iff, hk]
  | tmDec sel | spProj sel =>
    simp [encode, decode, (eq_encodeT_iff.mp rfl).1, decodeT_eq_ok_iff]
  | _ => rfl

end Map

section Illegal

open Machine

variable {w : OpWord} {i : Instr}

/-! ### Illegal words over the fields -/

/-- The number a field holds. -/
theorem field_toNat {lo len : Nat} :
    (w.extractLsb' lo len).toNat = w.toNat / 2 ^ lo % 2 ^ len := by
  rw [BitVec.extractLsb'_toNat, Nat.shiftRight_eq_div_pow]

theorem field_eq_iff {lo len : Nat} {x : BitVec len} :
    w.extractLsb' lo len = x ↔ w.toNat / 2 ^ lo % 2 ^ len = x.toNat := by
  rw [← BitVec.toNat_inj, field_toNat]

/-- A must-be-zero bit of the word's format is set: clause (b) of R57. -/
def ReservedSet (w : OpWord) : Prop :=
  (opField w ∈ opsN ∧ w.extractLsb' 0 24 ≠ 0#24) ∨ (opField w ∈ opsQ ∧ w.extractLsb' 17 7 ≠ 0#7) ∨
  (opField w ∈ opsL ∧ w.extractLsb' 16 6 ≠ 0#6) ∨ (opField w ∈ opsF ∧ w.extractLsb' 20 4 ≠ 0#4) ∨
  (opField w ∈ opsT ∧ w.extractLsb' 8 16 ≠ 0#16)

theorem valueRestricted_iff : valueRestricted w ↔
    (opField w ∈ opsL ∧ w.extractLsb' 22 2 = 3#2) ∨
    (opField w = 0x22#8 ∧ w.extractLsb' 0 16 ≠ 0#16) ∨
    (opField w = 0x30#8 ∧ w.extractLsb' 19 1 = 1#1) ∨
    (opField w ∈ opsF ∧ ¬ knownCommand (w.extractLsb' 14 5) = true) := by
  simp only [knownCommand_iff, ne_eq, field_eq_iff, field_toNat]
  rfl

theorem illegalWord_iff : illegalWord w ↔
    opField w ∉ opsN ++ opsQ ++ opsL ++ opsF ++ opsT ∨ ReservedSet w ∨ valueRestricted w := by
  simp only [ReservedSet, ne_eq, field_eq_iff]
  rfl

/-! ### Which words each format's decoder accepts -/

theorem exists_decodeN_iff {j : Instr} :
    (∃ i, decodeN w j = .ok i) ↔ w.extractLsb' 0 24 = 0#24 := by
  simp [decodeN_eq_ok_iff, eq_encodeN_iff]

theorem exists_decodeQ_iff {mk : QFormat → Instr} :
    (∃ i, decodeQ w mk = .ok i) ↔ w.extractLsb' 17 7 = 0#7 := by
  unfold decodeQ
  split <;> simp [*]

theorem exists_decodeT_iff {mk : Byte → Instr} :
    (∃ i, decodeT w mk = .ok i) ↔ w.extractLsb' 8 16 = 0#16 := by
  unfold decodeT
  split <;> simp [*]

theorem exists_selOfWidth_iff {sel : BitVec 2} : (∃ n, sel = selOfWidth n) ↔ sel ≠ 3#2 := by
  simp only [← widthOfSel_eq_some_iff, ← Option.isSome_iff_exists]
  revert sel; decide

theorem exists_decodeL_iff {f : FieldWidth → BitVec 16 → Except Illegal Instr} :
    (∃ i, decodeL w f = .ok i) ↔ w.extractLsb' 16 6 = 0#6 ∧
      ∃ n, w.extractLsb' 22 2 = selOfWidth n ∧ ∃ i, f n (w.extractLsb' 0 16) = .ok i := by
  simp only [decodeL_eq_ok_iff, eq_encodeL_iff]
  constructor
  · rintro ⟨i, n, _, hi, -, hsel, hz, rfl⟩
    exact ⟨hz, n, hsel, i, hi⟩
  · rintro ⟨hz, n, hsel, i, hi⟩
    exact ⟨i, n, _, hi, trivial, hsel, hz, rfl⟩

theorem exists_decodeF_iff {f : BitVec 7 → BitVec 7 → BitVec 5 → Bool → Except Illegal Instr} :
    (∃ i, decodeF w f = .ok i) ↔
      w.extractLsb' 20 4 = 0#4 ∧ knownCommand (w.extractLsb' 14 5) = true ∧
      ∃ i, f (w.extractLsb' 0 7) (w.extractLsb' 7 7) (w.extractLsb' 14 5)
        (w.extractLsb' 19 1 = 1#1) = .ok i := by
  unfold decodeF
  split <;> [split; skip] <;> simp [*]

theorem exists_lePutOf_iff {n : FieldWidth} {ofs : BitVec 16} :
    (∃ i, lePutOf n ofs = .ok i) ↔ ofs = 0#16 := by
  simp [lePutOf_eq_ok_iff]

theorem exists_frMkreqOf_iff {dest src : BitVec 7} {cmd : BitVec 5} {ack : Bool} :
    (∃ i, frMkreqOf dest src cmd ack = .ok i) ↔ ack = false := by
  simp [frMkreqOf_eq_ok_iff]

/-! ### The clauses of R57 -/

theorem notMem_of_mem_opsN : ∀ op ∈ opsN,
    op ∉ opsQ ∧ op ∉ opsL ∧ op ∉ opsF ∧ op ∉ opsT ∧ op ≠ 0x22#8 ∧ op ≠ 0x30#8 := by decide

theorem notMem_of_mem_opsQ : ∀ op ∈ opsQ,
    op ∉ opsN ∧ op ∉ opsL ∧ op ∉ opsF ∧ op ∉ opsT ∧ op ≠ 0x22#8 ∧ op ≠ 0x30#8 := by decide

theorem notMem_of_mem_opsT : ∀ op ∈ opsT,
    op ∉ opsN ∧ op ∉ opsQ ∧ op ∉ opsL ∧ op ∉ opsF ∧ op ≠ 0x22#8 ∧ op ≠ 0x30#8 := by decide

/-- A word decodes exactly when no clause of R57 forbids it. -/
theorem exists_decode_iff : (∃ i, decode w = .ok i) ↔ ¬ illegalWord w := by
  have h := decode_readBy w
  rw [illegalWord_iff, valueRestricted_iff, ReservedSet]
  generalize decode w = e at h
  cases h with
  | formatN j hop =>
    obtain ⟨hQ, hL, hF, hT, h22, h30⟩ := notMem_of_mem_opsN _ hop
    simp [exists_decodeN_iff, *]
  | formatQ mk hop =>
    obtain ⟨hN, hL, hF, hT, h22, h30⟩ := notMem_of_mem_opsQ _ hop
    simp [exists_decodeQ_iff, *]
  | lePut hop =>
    simp [exists_decodeL_iff, exists_lePutOf_iff, ← exists_selOfWidth_iff, hop, opsN, opsQ, opsL,
      opsF, opsT]
  | leGet hop =>
    simp [exists_decodeL_iff, ← exists_selOfWidth_iff, hop, opsN, opsQ, opsL, opsF, opsT]
  | frMkreq hop =>
    simp [exists_decodeF_iff, exists_frMkreqOf_iff, hop, opsN, opsQ, opsL, opsF, opsT,
      and_comm (a := knownCommand _ = true)]
  | frMkrep hop =>
    simp [exists_decodeF_iff, hop, opsN, opsQ, opsL, opsF, opsT]
  | formatT mk hop =>
    obtain ⟨hN, hQ, hL, hF, h22, h30⟩ := notMem_of_mem_opsT _ hop
    simp [exists_decodeT_iff, *]
  | unassigned hop =>
    simp only [reduceCtorEq, exists_false, hop, not_false_eq_true, true_or, not_true]

/-! ### The opcode table (R58) -/

/-- Where a row's mask has only ones, a word that matches it has the row's field. -/
theorem field_of_row {r : OpcodeRow} (h : w &&& r.mask = r.pattern) {lo len : Nat}
    (hm : r.mask.extractLsb' lo len = BitVec.allOnes len) :
    w.extractLsb' lo len = r.pattern.extractLsb' lo len := by
  rw [← h, BitVec.extractLsb'_and, hm, BitVec.and_allOnes]

/-- A row requires bits lo + len - 1 down to lo to be 0. -/
def OpcodeRow.RequiresZero (r : OpcodeRow) (lo len : Nat) : Prop :=
  r.mask.extractLsb' lo len = BitVec.allOnes len ∧ r.pattern.extractLsb' lo len = 0#len

theorem zero_of_requiresZero {r : OpcodeRow} {lo len : Nat} (hr : r.RequiresZero lo len)
    (h : w &&& r.mask = r.pattern) : w.extractLsb' lo len = 0#len :=
  (field_of_row h hr.1).trans hr.2

theorem row_fixes_op : ∀ r ∈ opcodeTable, r.mask.extractLsb' 24 8 = BitVec.allOnes 8 := by decide

theorem opField_of_row {r : OpcodeRow} (hr : r ∈ opcodeTable) (h : w &&& r.mask = r.pattern) :
    opField w = opField r.pattern :=
  field_of_row h (row_fixes_op r hr)

/-- The rows have different OP fields. -/
theorem row_eq_of_op_eq : ∀ r₁ ∈ opcodeTable, ∀ r₂ ∈ opcodeTable,
    opField r₁.pattern = opField r₂.pattern → r₁ = r₂ := by decide

theorem row_unique {r₁ r₂ : OpcodeRow} (h₁ : r₁ ∈ opcodeTable) (h₂ : r₂ ∈ opcodeTable)
    (hw₁ : w &&& r₁.mask = r₁.pattern) (hw₂ : w &&& r₂.mask = r₂.pattern) : r₁ = r₂ :=
  row_eq_of_op_eq r₁ h₁ r₂ h₂ ((opField_of_row h₁ hw₁).symm.trans (opField_of_row h₂ hw₂))

theorem row_op_assigned : ∀ r ∈ opcodeTable,
    opField r.pattern ∈ opsN ++ opsQ ++ opsL ++ opsF ++ opsT := by decide

/-- Every row requires the must-be-zero bits of its format to be 0 (R50 to R54). -/
theorem row_requiresZero : ∀ r ∈ opcodeTable,
    (opField r.pattern ∈ opsN → r.RequiresZero 0 24) ∧
    (opField r.pattern ∈ opsQ → r.RequiresZero 17 7) ∧
    (opField r.pattern ∈ opsL → r.RequiresZero 16 6) ∧
    (opField r.pattern ∈ opsF → r.RequiresZero 20 4) ∧
    (opField r.pattern ∈ opsT → r.RequiresZero 8 16) := by
  unfold OpcodeRow.RequiresZero
  decide

theorem not_reservedSet_of_row {r : OpcodeRow} (hr : r ∈ opcodeTable)
    (h : w &&& r.mask = r.pattern) : ¬ ReservedSet w := by
  obtain ⟨hN, hQ, hL, hF, hT⟩ := row_requiresZero r hr
  rw [← opField_of_row hr h] at hN hQ hL hF hT
  rintro (⟨hop, hne⟩ | ⟨hop, hne⟩ | ⟨hop, hne⟩ | ⟨hop, hne⟩ | ⟨hop, hne⟩)
  · exact hne (zero_of_requiresZero (hN hop) h)
  · exact hne (zero_of_requiresZero (hQ hop) h)
  · exact hne (zero_of_requiresZero (hL hop) h)
  · exact hne (zero_of_requiresZero (hF hop) h)
  · exact hne (zero_of_requiresZero (hT hop) h)

/-- A word a row matches is illegal only by the value restrictions (c) to (f) of R57. -/
theorem valueRestricted_of_illegalWord {r : OpcodeRow} (hr : r ∈ opcodeTable)
    (h : w &&& r.mask = r.pattern) (hi : illegalWord w) : valueRestricted w := by
  rcases illegalWord_iff.mp hi with hop | hz | hv
  · exact absurd (opField_of_row hr h ▸ row_op_assigned r hr) hop
  · exact absurd hz (not_reservedSet_of_row hr h)
  · exact hv

/-- The word of an instruction matches the row of its mnemonic. -/
theorem encode_matches_row (i : Instr) :
    ∃ r ∈ opcodeTable, r.mnemonic = mnemonicOf i ∧ encode i &&& r.mask = r.pattern := by
  suffices h : Laws.MatchesRow.Statement i by
    simpa [Laws.MatchesRow.Statement, OpcodeRow.covers] using h
  cases i with
  | frmEnc => exact Laws.MatchesRow.frmEnc
  | frmFeed => exact Laws.MatchesRow.frmFeed
  | frmRst => exact Laws.MatchesRow.frmRst
  | ckAppend => exact Laws.MatchesRow.ckAppend
  | ckVerify => exact Laws.MatchesRow.ckVerify
  | ckStrip => exact Laws.MatchesRow.ckStrip
  | qEnc fmt => exact Laws.MatchesRow.qEnc fmt
  | qDec fmt => exact Laws.MatchesRow.qDec fmt
  | lePut n => exact Laws.MatchesRow.lePut n
  | leGet n ofs => exact Laws.MatchesRow.leGet n ofs
  | frMkreq dest src cmd => exact Laws.MatchesRow.frMkreq dest src cmd
  | frMkrep dest src cmd ack => exact Laws.MatchesRow.frMkrep dest src cmd ack
  | frParse => exact Laws.MatchesRow.frParse
  | frValid => exact Laws.MatchesRow.frValid
  | tmDec sel => exact Laws.MatchesRow.tmDec sel
  | spProj sel => exact Laws.MatchesRow.spProj sel

theorem decode_matches_row (h : decode w = .ok i) :
    ∃ r ∈ opcodeTable, r.mnemonic = mnemonicOf i ∧ w &&& r.mask = r.pattern :=
  (eq_encode_of_decode h).1 ▸ encode_matches_row i

theorem runWord_of_illegalWord (h : illegalWord w) (s : State) :
    runWord w s = .next (s.raise .eIllegalOp 0) := by
  cases hd : decode w with
  | ok i => exact absurd h (exists_decode_iff.mp ⟨i, hd⟩)
  | error e => simp [runWord, hd]

end Illegal

end Sys2Proof

namespace Sys2Proof.Machine

section Answers

variable {s : State}

/-! ### What the operations answer on operands they accept -/

/-- The request FR_MKREQ builds (42_frame_model.md R119). -/
def requestFrame (dest src : BitVec 7) (cmd : BitVec 5) (p : Bytes) : Frame :=
  ⟨dest.setWidth 8, src.setWidth 8, requestControl cmd, p⟩

/-- The reply FR_MKREP builds (42_frame_model.md R120). -/
def replyFrame (dest src : BitVec 7) (cmd : BitVec 5) (ack : Bool) (p : Bytes) : Frame :=
  ⟨dest.setWidth 8, src.setWidth 8, replyControl cmd ack, p⟩

theorem exec_frMkreq {cmd : BitVec 5} (h : knownCommand cmd = true) (dest src : BitVec 7) :
    exec (.frMkreq dest src cmd) s =
      .next (s.ret { r := ser (requestFrame dest src cmd s.port.a) }) :=
  congrArg _ (s.build_of_known dest src cmd (requestControl cmd) h)

theorem exec_frMkrep {cmd : BitVec 5} (h : knownCommand cmd = true) (dest src : BitVec 7)
    (ack : Bool) :
    exec (.frMkrep dest src cmd ack) s =
      .next (s.ret { r := ser (replyFrame dest src cmd ack s.port.a) }) :=
  congrArg _ (s.build_of_known dest src cmd (replyControl cmd ack) h)

theorem exec_frParse {f : Frame} (h : parse s.port.a = some f) :
    exec .frParse s = .next (s.ret { r := f.payload, record := .frame (frameRec f) }) := by
  simp only [exec, execFrParse, h]

theorem exec_frParse_of_short (h : s.port.a.length < 3) :
    exec .frParse s = .next (s.raise .eFraming 0) := by
  simp only [exec, execFrParse, parse_eq_none_iff.mpr h]

theorem exec_frParse_ser (s : State) (f : Frame) :
    exec .frParse (s.withA (ser f)) =
      .next ((s.withA (ser f)).ret { r := f.payload, record := .frame (frameRec f) }) :=
  exec_frParse (parse_ser f)

/-- A positive reply to the request's command validates (42_frame_model.md R124). -/
theorem exec_frValid_of_ack {q p : Frame} (hq : parse s.port.a = some q)
    (hp : parse s.port.b = some p) (hcmd : cmdBits p.control = cmdBits q.control)
    (hreq : reqBit p.control = false) (hack : ackBit p.control = true) :
    exec .frValid s = .next (s.ret {}) := by
  simp [exec, execFrValid, hq, hp, hcmd, hreq, hack]

theorem exec_ckVerify_of_trailer {d : Bytes} (h : s.port.a = d ++ trailer s.cfg d) :
    exec .ckVerify s = .next (s.ret { y := .bool true }) := by
  have hv : verifies s.cfg s.port.a = true :=
    h ▸ (verifies_append_iff d _ (trailer_length d)).mpr rfl
  simp only [exec, execCkVerify, hv]

theorem exec_ckStrip_append {d t : Bytes} (h : s.port.a = d ++ t) (ht : t.length = 2) :
    exec .ckStrip s = .next (s.ret { r := d }) := by
  simp [exec, execCkStrip, h, ht, slice_zero]

theorem exec_lePut {n : FieldWidth} (h : s.port.x.u32.toNat < 2 ^ (8 * n.bytes)) :
    exec (.lePut n) s = .next (s.ret { r := leBytes n.bytes s.port.x.u32.toNat }) :=
  if_neg (Nat.not_le.mpr h)

theorem exec_leGet {n : FieldWidth} {ofs : BitVec 16} {v : Nat}
    (h : readField s.port.a ofs.toNat n = some v) :
    exec (.leGet n ofs) s = .next (s.ret { y := .int v }) := by
  simp only [exec, execLeGet, h]

theorem exec_spProj {sel : Byte} {f : QFormat} (h : setpointFormat s.cfg sel = some f) :
    exec (.spProj sel) s = .next (s.ret { y := .rat (qValue f s.port.x.u32.toNat) }) := by
  simp only [exec, execSpProj, h]

/-- Q_ENC of a finite value in range (43_fixed_point.md R134). -/
theorem exec_qEnc_of_mem {f : QFormat} {x : Rat} (hw : hasWidth f = true)
    (hx : real64 s.port.x.f64 = .finite x) (hlo : qLo f ≤ x) (hhi : x ≤ qHi f) :
    exec (.qEnc f) s =
      .next (s.ret { y := .int (toPattern (qWidth f) (trunc (x * pow2 f.fb.toNat))) }) := by
  simp [exec, execQEnc, hw, hx, saturate, rangeFlag, hlo, hhi, not_lt.mpr]

/-- TM_DEC of a block whose fields lie inside the string. -/
theorem exec_tmDec {sel : Byte} {b : BlockDesc} {vs : List FieldVal}
    (hb : findBlock s.cfg sel = some b) (hlen : b.len ≤ s.port.a.length)
    (hvs : readFields s.port.a b.fields = some vs) :
    exec (.tmDec sel) s = .next (s.ret { record := .block b.name vs }) := by
  simp [exec, execTmDec, hb, Nat.not_lt.mpr hlen, hvs]

/-! ### The framer -/

variable {c : Config} {d : Decoder}

theorem byteStep_flag_of_nil (hf : d.fault = none) (he : d.ep = false) (hb : d.buf = []) :
    byteStep c d c.flag = d := by
  simp [byteStep, hf, he, hb]

theorem byteStep_flag_of_ne_nil (hf : d.fault = none) (he : d.ep = false) (hb : d.buf ≠ []) :
    byteStep c d c.flag = { d with buf := [], frames := d.frames ++ [d.buf] } := by
  simp [byteStep, hf, he, List.length_pos_iff.mpr hb]

/-- From the reset decoder, the wire string of a non-empty payload emits that payload and leaves the
decoder reset (40_framer.md R106 (a)). -/
theorem feed_frameEncode (hc : configWf c = true) (hf : d.fault = none) (he : d.ep = false)
    (hb : d.buf = []) {x : Bytes} (hx : x ≠ []) (fit : fitsCap c x.length = true) :
    feed c d (frameEncode c x) = { d with frames := d.frames ++ [x] } := by
  have opening : feed c d [c.flag] = d := byteStep_flag_of_nil hf he hb
  have payload : feed c d (escAll c x) = { d with buf := x } := by
    simpa [hb] using feed_escAll hc he hf x (by simpa [hb] using fit)
  have closing : feed c { d with buf := x } [c.flag] = { d with frames := d.frames ++ [x] } :=
    (byteStep_flag_of_ne_nil (d := { d with buf := x }) hf he hx).trans (by rw [hb])
  rw [frameEncode, feed_append, feed_append, opening, payload, closing]

theorem exec_frmFeed_frameEncode (hc : configWf s.cfg = true) (hf : s.fault = none)
    (he : s.ep = false) (hb : s.buf = []) {x : Bytes} (hx : x ≠ [])
    (fit : fitsCap s.cfg x.length = true) (ha : s.port.a = frameEncode s.cfg x) :
    exec .frmFeed s = .next (s.ret { frames := [x] }) := by
  have h := feed_frameEncode (d := s.decoder) hc hf he hb hx fit
  rw [← ha] at h
  have hfault : (feed s.cfg s.decoder s.port.a).fault = none := by rw [h]; exact hf
  exact (execFrmFeed_of_no_fault hfault).trans (by rw [h]; rfl)

/-! ### Fields of strings -/

/-- A little-endian field written behind `pre` is read back at its offset. -/
theorem readField_leBytes (pre post : Bytes) {n : FieldWidth} {v : Nat}
    (h : v < 2 ^ (8 * n.bytes)) :
    readField (pre ++ leBytes n.bytes v ++ post) pre.length n = some v := by
  rw [readField_eq_some_iff]
  refine ⟨by simp, ?_⟩
  rw [List.append_assoc, List.drop_left, List.take_left' (leBytes_length _ _), leVal_leBytes h]

/-- A word written behind `pre` is read back at its offset. -/
theorem readField_word (pre : Bytes) (v : BitVec 32) :
    readField (pre ++ leBytes 4 v.toNat) pre.length .w4 = some v.toNat := by
  have h := readField_leBytes pre [] (n := .w4) v.isLt
  rwa [List.append_nil] at h

/-- The first byte of a string. -/
theorem readField_byte (b : Byte) (rest : Bytes) : readField (b :: rest) 0 .w1 = some b.toNat := by
  simp [readField_eq_some_iff, FieldWidth.bytes, leVal]

theorem readField_payload (q : CommandRequest) :
    ∀ e ∈ q.fields, readField q.payload e.2.1.toNat e.1 = some e.2.2 := by
  cases q with
  | ping => nofun
  | tripLcl p => nofun
  | peek a | appTm a =>
    simpa [CommandRequest.fields, CommandRequest.payload] using readField_byte a []
  | poke a v | appCmd a v =>
    simpa [CommandRequest.fields, CommandRequest.payload] using
      ⟨readField_byte a _, readField_word [a] v⟩
  | clearFault v | configProt v =>
    simpa [CommandRequest.fields, CommandRequest.payload] using readField_word [] v

theorem payload_length (q : CommandRequest) (h : q.command ≠ .tripLcl) :
    q.payload.length = (q.fields.map (fun e => e.1.bytes)).sum := by
  cases q with
  | tripLcl p => exact absurd rfl h
  | _ => simp [CommandRequest.payload, CommandRequest.fields, FieldWidth.bytes]

theorem fields_disjoint (q : CommandRequest) :
    q.fields.Pairwise (fun e e' => e.2.1.toNat + e.1.bytes ≤ e'.2.1.toNat) := by
  cases q <;> simp [CommandRequest.fields, FieldWidth.bytes]

/-! ### Blocks -/

theorem findBlock_eq_some {id : Byte} {b : BlockDesc} (h : findBlock c id = some b) :
    b ∈ tmBlocks c ∧ b.id = id :=
  ⟨List.mem_of_find?_eq_some h, by simpa using List.find?_some h⟩

theorem replyShape_appTm_iff {id : Byte} {p : Bytes} :
    replyShape c (.appTm id) p = true ↔ ∃ b, findBlock c id = some b ∧ p.length = b.len := by
  unfold replyShape
  cases h : findBlock c id <;> simp [h]

/-! ### The control byte -/

theorem control_bits_sum (k : Byte) :
    (reqBit k).toNat * 128 + (rsvBit k).toNat * 64 + (ackBit k).toNat * 32 + (cmdBits k).toNat =
      k.toNat := by
  revert k; decide +kernel

theorem cmdBits_toNat (k : Byte) : (cmdBits k).toNat = k.toNat % 32 := by
  simp [cmdBits]

theorem kindOf_eq_iff (req ack : Bool) :
    (kindOf req ack = .request ↔ req = true ∧ ack = false) ∧
    (kindOf req ack = .ack ↔ req = false ∧ ack = true) ∧
    (kindOf req ack = .nack ↔ req = false ∧ ack = false) ∧
    (kindOf req ack = .invalid ↔ req = true ∧ ack = true) := by
  revert req ack; decide

/-- The header a built request parses to. -/
theorem frameRec_requestFrame (dest src : BitVec 7) (cmd : BitVec 5) (p : Bytes) :
    frameRec (requestFrame dest src cmd p) =
      { dest := dest.setWidth 8, src := src.setWidth 8, ctrl := requestControl cmd, req := true,
        rsv := false, ack := false, cmd := cmd, kind := .request, known := knownCommand cmd } := by
  obtain ⟨hcmd, hreq, hrsv, hack⟩ := requestControl_bits cmd
  simp [frameRec, requestFrame, hcmd, hreq, hrsv, hack, kindOf]

/-- The header a built reply parses to. -/
theorem frameRec_replyFrame (dest src : BitVec 7) (cmd : BitVec 5) (ack : Bool) (p : Bytes) :
    frameRec (replyFrame dest src cmd ack p) =
      { dest := dest.setWidth 8, src := src.setWidth 8, ctrl := replyControl cmd ack, req := false,
        rsv := false, ack := ack, cmd := cmd, kind := kindOf false ack,
        known := knownCommand cmd } := by
  obtain ⟨hcmd, hreq, hrsv, hack⟩ := replyControl_bits cmd ack
  simp [frameRec, replyFrame, hcmd, hreq, hrsv, hack]

theorem address_toNat (a : BitVec 7) : (a.setWidth 8 : Byte).toNat = a.toNat :=
  BitVec.toNat_setWidth_of_le (by decide)

/-! ### Truncation to a multiple of 2^-k -/

/-- x truncated toward zero to a multiple of 2^-k (43_fixed_point.md R134, R136). -/
def truncAt (k : Nat) (x : Rat) : Rat := trunc (x * pow2 k) / pow2 k

variable (k : Nat) (x : Rat)

theorem truncAt_mul : truncAt k x * pow2 k = trunc (x * pow2 k) :=
  div_mul_cancel₀ _ (pow2_pos k).ne'

theorem abs_trunc_le (q : Rat) : |(trunc q : Rat)| ≤ |q| := by
  obtain ⟨hp, hn⟩ := trunc_spec q
  rcases le_total 0 q with h | h
  · obtain ⟨h1, -, h3⟩ := hp h
    rwa [abs_of_nonneg h, abs_of_nonneg (by exact_mod_cast h3)]
  · obtain ⟨h1, -, h3⟩ := hn h
    rw [abs_of_nonpos h, abs_of_nonpos (by exact_mod_cast h3)]
    exact neg_le_neg h1

theorem abs_truncAt_le : |truncAt k x| ≤ |x| := by
  have h := abs_trunc_le (x * pow2 k)
  rwa [← truncAt_mul, abs_mul, abs_mul, mul_le_mul_iff_left₀ (abs_pos.mpr (pow2_pos k).ne')] at h

theorem abs_sub_truncAt_lt : |x - truncAt k x| < 1 / pow2 k := by
  have h := abs_sub_trunc_lt_one (x * pow2 k)
  rwa [← truncAt_mul, ← sub_mul, abs_mul, abs_of_pos (pow2_pos k), ← lt_div_iff₀ (pow2_pos k)] at h

theorem eq_truncAt_iff : x = truncAt k x ↔ ∃ n : Int, x * pow2 k = n := by
  constructor
  · intro h
    exact ⟨trunc (x * pow2 k), by conv_lhs => rw [h, truncAt_mul]⟩
  · rintro ⟨n, hn⟩
    rw [truncAt, hn, trunc_intCast, ← hn, mul_div_cancel_right₀ _ (pow2_pos k).ne']

/-- A value in range has a raw pattern of W bits, whose value is the truncated one. -/
theorem exists_pattern {f : QFormat} {x : Rat} (hw : hasWidth f = true) (hlo : qLo f ≤ x)
    (hhi : x ≤ qHi f) :
    ∃ n : Nat, toPattern (qWidth f) (trunc (x * pow2 f.fb.toNat)) = n ∧ n < 2 ^ qWidth f ∧
      qValue f n = truncAt f.fb.toNat x := by
  obtain ⟨h1, h2⟩ := trunc_clamped_mem f x
  rw [max_eq_left hlo, min_eq_left hhi] at h1 h2
  obtain ⟨n, hn, hlt, hv⟩ := toPattern_spec f hw h1 h2
  exact ⟨n, hn, hlt, by rw [qValue, hv, truncAt]⟩

/-- The setpoint formats are 32 bits wide (44_telemetry.md R144). -/
theorem setpointFormat_width {sel : Byte} {f : QFormat} (h : setpointFormat c sel = some f) :
    hasWidth f = true ∧ qWidth f = 32 := by
  unfold setpointFormat at h
  repeat' split at h
  all_goals cases h
  all_goals decide

end Answers

end Sys2Proof.Machine

namespace Sys2Proof.Proofs

open Sys2Proof.Machine

/-- Settles O1, by reading the fields back from the concatenation. -/
theorem decodeOfEncode : Obligations.DecodeOfEncode := by
  unfold Obligations.DecodeOfEncode
  exact fun _ h => decode_encode h

/-- Settles O2: every format's decoder reads each field of the word or requires it to be 0. -/
theorem encodeOfDecode : Obligations.EncodeOfDecode := by
  unfold Obligations.EncodeOfDecode
  intro w i h
  obtain ⟨hw, hwf⟩ := eq_encode_of_decode h
  exact ⟨hw.symm, hwf⟩

/-- Settles O3: the OP fields of the rows differ, and a row's mask leaves out only the value
restrictions. -/
theorem decoderFollowsOpcodeTable : Obligations.DecoderFollowsOpcodeTable := by
  unfold Obligations.DecoderFollowsOpcodeTable
  refine fun w => ⟨fun r₁ h₁ r₂ h₂ => row_unique h₁ h₂, fun i hi => ⟨fun hv => ?_, ?_⟩,
    fun r hr hw hv => ?_⟩
  · exact exists_decode_iff.mp ⟨i, hi⟩ (illegalWord_iff.mpr (.inr (.inr hv)))
  · exact decode_matches_row hi
  · obtain ⟨i, hi⟩ := exists_decode_iff.mpr fun h => hv (valueRestricted_of_illegalWord hr hw h)
    obtain ⟨r', hr', hm, hw'⟩ := decode_matches_row hi
    exact ⟨i, hi, row_unique hr hr' hw hw' ▸ hm.symm⟩

/-- Settles O4: a word decodes exactly when no clause of R57 forbids it. -/
theorem illegalWordsRaiseIllegalOp : Obligations.IllegalWordsRaiseIllegalOp := by
  unfold Obligations.IllegalWordsRaiseIllegalOp
  intro w s
  refine ⟨?_, fun h => runWord_of_illegalWord h s⟩
  rw [← not_exists, exists_decode_iff, not_not]

/-- Settles O26; the control byte is split over its 256 values. -/
theorem frParseUnpacksHeader : Obligations.FrParseUnpacksHeader := by
  unfold Obligations.FrParseUnpacksHeader
  refine fun s => ⟨fun h => exec_frParse_of_short h, fun d r k p ha => ?_⟩
  obtain ⟨hrequest, hack, hnack, hinvalid⟩ := kindOf_eq_iff (reqBit k) (ackBit k)
  refine ⟨frameRec ⟨d, r, k, p⟩, exec_frParse (ha ▸ parse_cons d r k p), rfl, rfl, rfl,
    control_bits_sum k, hrequest, hack, hnack, hinvalid, ?_⟩
  rw [← cmdBits_toNat]
  exact knownCommand_iff (cmdBits k)

/-- Settles O29, layer by layer. -/
theorem transmitThenReceiveIsIdentity : Obligations.TransmitThenReceiveIsIdentity := by
  unfold Obligations.TransmitThenReceiveIsIdentity
  intro s dest src cmd p hc hf hb he hcap hk
  obtain ⟨F, hF⟩ : ∃ F, F = ser (requestFrame dest src cmd p) := ⟨_, rfl⟩
  obtain ⟨G, hG⟩ : ∃ G, G = F ++ trailer s.cfg F := ⟨_, rfl⟩
  have hlen : G.length = p.length + 5 := by simp [hG, hF, ser, requestFrame]
  have hne : G ≠ [] := List.length_pos_iff.mp (by omega)
  have fit : fitsCap s.cfg G.length = true := fitsCap_iff.mpr (hlen ▸ hcap)
  refine ⟨F, G, frameEncode s.cfg G, frameRec (requestFrame dest src cmd p),
    ?_, ?_, rfl, ?_, ?_, ?_, ?_, ?_⟩
  · rw [hF]; exact exec_frMkreq hk dest src
  · rw [hG]; rfl
  · exact exec_frmFeed_frameEncode (s := s.withA (frameEncode s.cfg G)) hc hf he hb hne fit rfl
  · exact exec_ckVerify_of_trailer (s := s.withA G) hG
  · exact exec_ckStrip_append (s := s.withA G) hG (trailer_length F)
  · rw [hF]; exact exec_frParse_ser s _
  · rw [frameRec_requestFrame]
    exact ⟨address_toNat dest, address_toNat src, rfl, rfl⟩

/-- Settles O46: all four setpoint formats are 32 bits wide, and what SP_PROJ reads of the raw value
is the input truncated at 2^-FB. -/
theorem setpointTravelsThroughAppCmd : Obligations.SetpointTravelsThroughAppCmd := by
  unfold Obligations.SetpointTravelsThroughAppCmd
  intro s sel f x hc hmode hx hlo hhi
  have hf : setpointFormat s.cfg sel = some f := by
    obtain ⟨hspeed, htorque, hpwm, -⟩ := setpointFormat_spec hc sel
    rcases hmode with ⟨h, rfl⟩ | ⟨h, rfl⟩ | ⟨h, rfl⟩
    · exact hspeed h
    · exact htorque h
    · exact hpwm h
  obtain ⟨hw, hw32⟩ := setpointFormat_width hf
  obtain ⟨n, hn, hlt, hv⟩ := exists_pattern hw hlo hhi
  rw [hw32] at hlt
  obtain ⟨raw, rfl⟩ : ∃ raw : BitVec 32, raw.toNat = n := ⟨⟨n, hlt⟩, rfl⟩
  refine ⟨raw, leBytes 4 raw.toNat, truncAt f.fb.toNat x, ?_, exec_lePut raw.isLt,
    exec_leGet (readField_word [sel] raw), ?_, ?_⟩
  · rw [exec_qEnc_of_mem hw hx hlo hhi, hn]; rfl
  · rw [← hv]; exact exec_spProj hf
  · rw [← pow2_eq]
    exact ⟨⟨_, truncAt_mul _ x⟩, abs_truncAt_le _ x, abs_sub_truncAt_lt _ x, eq_truncAt_iff _ x⟩

/-- Settles O47, from the offsets of each payload shape. -/
theorem requestPayloadFieldsReadBack : Obligations.RequestPayloadFieldsReadBack := by
  unfold Obligations.RequestPayloadFieldsReadBack
  intro s dest src q
  have hk := knownCommand_code q.command
  refine ⟨⟨_, _, exec_frMkreq hk dest src, exec_frParse_ser s _, ?_⟩,
    fun e he => exec_leGet (readField_payload q e he), payload_length q, fields_disjoint q⟩
  rw [frameRec_requestFrame]
  exact ⟨rfl, hk, rfl⟩

/-- Settles O48: the layout of a well-formed block lies inside a string of the block's length. -/
theorem appTmReplyDecodes : Obligations.AppTmReplyDecodes := by
  unfold Obligations.AppTmReplyDecodes
  intro s dest src id p hc hshape
  obtain ⟨b, hb, hlen⟩ := replyShape_appTm_iff.mp hshape
  obtain ⟨hmem, hid⟩ := findBlock_eq_some hb
  have hk : knownCommand Command.appTm.code = true := knownCommand_code .appTm
  have hfits : ∀ f ∈ b.fields, f.ofs + f.width.bytes ≤ p.length :=
    fun f hf => hlen ▸ field_fits hc hmem hf
  obtain ⟨hqcmd, -⟩ := requestControl_bits Command.appTm.code
  obtain ⟨hcmd, hreq, -, hack⟩ := replyControl_bits Command.appTm.code true
  refine ⟨_, _, _, b, _, exec_frMkreq hk dest src, exec_frMkrep hk src dest true,
    exec_frValid_of_ack (parse_ser _) (parse_ser _) (hcmd.trans hqcmd.symm) hreq hack,
    exec_frParse_ser s _, ?_, hmem, hid,
    exec_tmDec (s := s.withA p) hb hlen.ge (readFields_of_fits hfits), ?_⟩
  · rw [frameRec_replyFrame]; rfl
  · simp

/-- Settles O5, by evaluating the decoder. -/
theorem sampleWordsDecode : Obligations.SampleWordsDecode := by
  unfold Obligations.SampleWordsDecode
  exact ⟨rfl, rfl, rfl, rfl, rfl, rfl⟩

end Sys2Proof.Proofs

/-! PROOFS. 40_framer.md: one byte of the decoder, what FRM_FEED answers for a chunk, the wire string
from any decoder, and runs of FRM_FEED operations (O7 to O17). -/

namespace Sys2Proof.Machine

section Framer

variable {c : Config} {d : Decoder}

/-! ### The escape map -/

theorem escByte_flag : escByte c c.flag = [c.esc, c.escFlag] := if_pos rfl

theorem escByte_esc (h : c.flag ≠ c.esc) : escByte c c.esc = [c.esc, c.escEsc] :=
  (if_neg h.symm).trans (if_pos rfl)

theorem escByte_plain {b : Byte} (hflag : b ≠ c.flag) (hesc : b ≠ c.esc) : escByte c b = [b] :=
  (if_neg hflag).trans (if_neg hesc)

/-! ### `app` and one byte -/

theorem app_of_not_fits {str : Bytes} (h : fitsCap c (d.buf.length + str.length) = false) :
    app c d str = { d with fault := some .overflow } := by
  simp [app, h]

theorem fitsCap_iff_none_or {n : Nat} :
    fitsCap c n = true ↔ c.bufCap = none ∨ ∃ k, c.bufCap = some k ∧ n ≤ k := by
  rw [fitsCap_iff]
  cases c.bufCap <;> simp

/-- The byte behind an escape octet (40_framer.md R102). -/
theorem byteStep_of_ep (hf : d.fault = none) (he : d.ep = true) (b : Byte) :
    byteStep c d b = app c { d with ep := false }
      (if b = c.escFlag then [c.flag] else if b = c.escEsc then [c.esc] else [c.esc, b]) := by
  unfold byteStep
  rw [hf, he]
  split_ifs <;> simp_all

theorem byteStep_esc (hf : d.fault = none) (he : d.ep = false) (h : c.esc ≠ c.flag) :
    byteStep c d c.esc = { d with ep := true } := by
  simp [byteStep, hf, he, h]

theorem byteStep_plain (hf : d.fault = none) (he : d.ep = false) {b : Byte}
    (hflag : b ≠ c.flag) (hesc : b ≠ c.esc) : byteStep c d b = app c d [b] := by
  simp [byteStep, hf, he, hflag, hesc]

/-! ### Chunks -/

/-- A chunk x followed by y is x, then y on a decoder that has emitted no frame yet, the frames of
both in order (40_framer.md R106 (c)). -/
theorem feed_append_of_feed {buf : Bytes} {ep : Bool} {fault : Option Fault} {frames : List Bytes}
    {x : Bytes} (h : feed c d x = ⟨buf, ep, fault, frames⟩) (y : Bytes) :
    feed c d (x ++ y) =
      { feed c ⟨buf, ep, fault, []⟩ y with
        frames := frames ++ (feed c ⟨buf, ep, fault, []⟩ y).frames } := by
  rw [feed_append, h, feed_of_frames]

/-- If x ++ y is fed without an overflow, so is x. -/
theorem feed_fault_of_append {x y : Bytes} (h : (feed c d (x ++ y)).fault = none) :
    (feed c d x).fault = none := by
  rw [feed_append] at h
  by_contra hx
  exact hx (feed_fault_of_set hx y ▸ h)

/-- Bytes that are neither delimiter nor escape octet are appended as long as they fit. -/
theorem feed_plain (hf : d.fault = none) (he : d.ep = false) {x : Bytes}
    (hx : ∀ b ∈ x, b ≠ c.flag ∧ b ≠ c.esc) (fit : fitsCap c (d.buf.length + x.length) = true) :
    feed c d x = { d with buf := d.buf ++ x } := by
  induction x generalizing d with
  | nil => simp
  | cons b x ih =>
    obtain ⟨⟨hflag, hesc⟩, hx⟩ := List.forall_mem_cons.mp hx
    have step : byteStep c d b = { d with buf := d.buf ++ [b] } :=
      (byteStep_plain hf he hflag hesc).trans (app_of_fits (fitsCap_mono (by simp) fit))
    have rest := ih (d := { d with buf := d.buf ++ [b] }) hf he hx
      (by simpa [Nat.add_assoc, Nat.add_comm 1] using fit)
    rw [feed_cons, step, rest, List.append_assoc, List.singleton_append]

/-- The first such byte that does not fit is an overflow (40_framer.md R103). -/
theorem feed_plain_beyond (hf : d.fault = none) (he : d.ep = false) {x : Bytes} {b : Byte}
    (hx : ∀ b' ∈ x ++ [b], b' ≠ c.flag ∧ b' ≠ c.esc)
    (fit : fitsCap c (d.buf.length + x.length) = true)
    (full : fitsCap c (d.buf.length + x.length + 1) = false) :
    feed c d (x ++ [b]) = { d with buf := d.buf ++ x, fault := some .overflow } := by
  obtain ⟨hx, hb⟩ := List.forall_mem_append.mp hx
  obtain ⟨hflag, hesc⟩ := List.forall_mem_singleton.mp hb
  rw [feed_append, feed_plain hf he hx fit, feed_cons, feed_nil,
    byteStep_plain (by exact hf) (by exact he) hflag hesc,
    app_of_not_fits (by simpa using full)]

/-- An escaped string and a delimiter close the frame begun in BUF. -/
theorem feed_escAll_flag (hc : configWf c = true) (hf : d.fault = none) (he : d.ep = false)
    {x : Bytes} (hx : x ≠ []) (fit : fitsCap c (d.buf.length + x.length) = true) :
    feed c d (escAll c x ++ [c.flag]) =
      { d with buf := [], frames := d.frames ++ [d.buf ++ x] } := by
  rw [feed_append, feed_escAll hc he hf x fit]
  exact byteStep_flag_of_ne_nil hf he (List.append_ne_nil_of_right_ne_nil _ hx)

theorem frameEncode_eq_cons (x : Bytes) :
    frameEncode c x = c.flag :: (escAll c x ++ [c.flag]) := rfl

/-- A partial frame in BUF is closed by the wire string's first delimiter and emitted before its
payload (40_framer.md R106 (d)). -/
theorem feed_frameEncode_of_partial (hc : configWf c = true) (hf : d.fault = none)
    (he : d.ep = false) (hb : d.buf ≠ []) {x : Bytes} (hx : x ≠ [])
    (fit : fitsCap c x.length = true) :
    feed c d (frameEncode c x) = { d with buf := [], frames := d.frames ++ [d.buf, x] } := by
  rw [frameEncode_eq_cons, feed_cons, byteStep_flag_of_ne_nil hf he hb,
    feed_escAll_flag hc (by exact hf) (by exact he) hx (by simpa using fit)]
  simp

/-- A pending escape swallows the wire string's first delimiter, and one corrupted frame is emitted
(40_framer.md R106 (d); 70_reset_and_hazards.md R165). -/
theorem feed_frameEncode_of_ep (hc : configWf c = true) (hf : d.fault = none) (he : d.ep = true)
    {x : Bytes} (hx : x ≠ []) (fit : fitsCap c (d.buf.length + 2 + x.length) = true) :
    feed c d (frameEncode c x) =
      { d with
        buf := [], ep := false
        frames := d.frames ++ [d.buf ++ [c.esc, c.flag] ++ x] } := by
  obtain ⟨-, hescFlag, hescEsc, -, -, -⟩ := octets_of_configWf hc
  have swallowed : byteStep c d c.flag =
      { d with ep := false, buf := d.buf ++ [c.esc, c.flag] } := by
    rw [byteStep_of_ep hf he, if_neg hescFlag, if_neg hescEsc]
    exact app_of_fits (fitsCap_mono (Nat.le_add_right _ _) fit)
  rw [frameEncode_eq_cons, feed_cons, swallowed,
    feed_escAll_flag hc (by exact hf) rfl hx (by simpa using fit)]

/-! ### What FRM_FEED answers -/

variable {s t : State}

theorem exec_frmFeed_of_feed (hf : s.fault = none) {buf : Bytes} {ep : Bool} {frames : List Bytes}
    (h : feed s.cfg s.decoder s.port.a =
      { s.decoder with buf := buf, ep := ep, frames := frames }) :
    exec .frmFeed s =
      .next { s with buf := buf, ep := ep, results := s.results ++ [{ frames := frames }] } := by
  have hfault : (feed s.cfg s.decoder s.port.a).fault = none := by rw [h]; exact hf
  exact (execFrmFeed_of_no_fault hfault).trans (by rw [h]; rfl)

theorem exec_frmFeed_of_overflow {buf : Bytes} {ep : Bool} {frames : List Bytes}
    (h : feed s.cfg s.decoder s.port.a = ⟨buf, ep, some .overflow, frames⟩) :
    exec .frmFeed s = .next { s with buf := buf, ep := ep, fault := some .overflow } := by
  have hfault : (feed s.cfg s.decoder s.port.a).fault = some .overflow := by rw [h]
  exact (execFrmFeed_of_fault hfault).trans (by rw [h]; rfl)

/-- FRM_FEED of a chunk that comes to one `app` (40_framer.md R103). -/
theorem exec_frmFeed_of_app (hf : s.fault = none) {str : Bytes}
    (h : feed s.cfg s.decoder s.port.a = app s.cfg { s.decoder with ep := false } str) :
    exec .frmFeed s =
      if s.cfg.bufCap = none ∨ ∃ k, s.cfg.bufCap = some k ∧ s.buf.length + str.length ≤ k then
        .next { s with buf := s.buf ++ str, ep := false, results := s.results ++ [{}] }
      else .next { s with ep := false, fault := some .overflow } := by
  rcases app_cases (c := s.cfg) (d := { s.decoder with ep := false }) str with
    ⟨fit, e⟩ | ⟨full, e⟩
  · exact (exec_frmFeed_of_feed hf (h.trans e)).trans (if_pos (fitsCap_iff_none_or.mp fit)).symm
  · have beyond := mt fitsCap_iff_none_or.mpr (Bool.eq_false_iff.mp full)
    exact (exec_frmFeed_of_overflow (h.trans e)).trans (if_neg beyond).symm

/-- An FRM_FEED that returned a result fed its chunk without an overflow. -/
theorem feed_of_exec_frmFeed (h : exec .frmFeed s = .next t) {frames : List Bytes}
    (hr : t.results = s.results ++ [{ frames := frames }]) :
    t.cfg = s.cfg ∧ t.fault = none ∧
      feed s.cfg s.decoder s.port.a = ⟨t.buf, t.ep, none, frames⟩ := by
  rcases exec_cases .frmFeed s with ⟨hi, -⟩ | ⟨hi, -⟩ | ⟨-, hfault, e⟩ | ⟨-, -, e⟩
  · exact absurd rfl hi
  · cases hi
  · obtain rfl := Host.Outcome.next.inj (e.symm.trans h)
    have hframes : (feed s.cfg s.decoder s.port.a).frames = frames := by simpa using hr
    exact ⟨rfl, hfault, by rw [← hfault, ← hframes]; rfl⟩
  · obtain rfl := Host.Outcome.next.inj (e.symm.trans h)
    simp at hr

/-! ### Runs of FRM_FEED operations -/

/-- A step whose operation is an FRM_FEED that does not overflow. -/
theorem step_frmFeed (wf : configWf s.cfg = true) (hf : s.fault = none) {q : Request}
    {rest : List Request} (hp : s.pending = q :: rest) (hq : q.opw = 0x02000000#32) {buf : Bytes}
    {ep : Bool} {frames : List Bytes}
    (h : feed s.cfg s.decoder q.args.a = ⟨buf, ep, none, frames⟩) :
    ∃ t, step s = .next t ∧ t.cfg = s.cfg ∧ t.pending = rest ∧ t.decoder = ⟨buf, ep, none, []⟩ ∧
      t.results = s.results ++ [{ frames := frames }] := by
  have hd : decode 0x02000000#32 = .ok .frmFeed := rfl
  have hexec := exec_frmFeed_of_feed (s := s.issue q rest) (buf := buf) (ep := ep)
    (frames := frames) hf (h.trans (by simp [hf]))
  have hstep : step s = exec .frmFeed (s.issue q rest) := by
    simp [step, wf, hf, hp, runWord, hq, hd]
  exact ⟨_, hstep.trans hexec, rfl, rfl, by simp [State.decoder, hf], rfl⟩

theorem runSteps_of_step {k : Nat} (h : step s = .next t) : runSteps (k + 1) s = runSteps k t := by
  simp [runSteps, h]

/-- A run of FRM_FEED operations is one feed of their concatenated chunks, where that does not
overflow: one result of status 0 for each, with the frames in order (40_framer.md R104, R106 (c);
70_reset_and_hazards.md R167). -/
theorem runSteps_frmFeeds {chunks : List Request} (wf : configWf s.cfg = true)
    (hf : s.fault = none) (hp : s.pending = chunks) (hq : ∀ q ∈ chunks, q.opw = 0x02000000#32)
    (hfeed : (feed s.cfg s.decoder (chunks.map (·.args.a)).flatten).fault = none) :
    ∃ (t : State) (rs : List Result), runSteps chunks.length s = .next t ∧ t.final ∧
      t.results = s.results ++ rs ∧ rs.length = chunks.length ∧ (∀ r ∈ rs, r.status = 0x00#8) ∧
      feed s.cfg s.decoder (chunks.map (·.args.a)).flatten =
        ⟨t.buf, t.ep, none, rs.flatMap (·.frames)⟩ := by
  induction chunks generalizing s with
  | nil => exact ⟨s, [], rfl, ⟨hp, hf⟩, by simp, rfl, by simp, by simp [State.decoder, hf]⟩
  | cons q rest ih =>
    obtain ⟨hq₀, hq⟩ := List.forall_mem_cons.mp hq
    rw [List.map_cons, List.flatten_cons] at hfeed ⊢
    rcases hd : feed s.cfg s.decoder q.args.a with ⟨buf, ep, fault, frames⟩
    obtain rfl : fault = none := by simpa [hd] using feed_fault_of_append hfeed
    have hsplit := feed_append_of_feed hd (rest.map (·.args.a)).flatten
    obtain ⟨u, hstep, hcfg, hpend, hdec, hres⟩ := step_frmFeed wf hf hp hq₀ hd
    rw [← hcfg, ← hdec] at hsplit
    rw [← hcfg] at wf hfeed ⊢
    rw [hsplit] at hfeed ⊢
    obtain ⟨t, rs, hrun, hfinal, hres', hlen, hok, hrest⟩ :=
      ih wf (congrArg Decoder.fault hdec) hpend hq hfeed
    refine ⟨t, { frames := frames } :: rs, (runSteps_of_step hstep).trans hrun, hfinal, ?_, ?_,
      List.forall_mem_cons.mpr ⟨rfl, hok⟩, ?_⟩
    · rw [hres', hres, List.append_assoc, List.singleton_append]
    · rw [List.length_cons, List.length_cons, hlen]
    · rw [hrest, List.flatMap_cons]

end Framer

end Sys2Proof.Machine

namespace Sys2Proof.Proofs

open Sys2Proof.Machine

/-- Settles O8, by the length and the bytes of an escaped string. -/
theorem frmEncFramesPayload : Obligations.FrmEncFramesPayload := by
  unfold Obligations.FrmEncFramesPayload
  exact fun s => ⟨escAll s.cfg s.port.a, rfl, rfl, length_escAll _,
    fun hc => flag_not_mem_escAll hc _⟩

/-- Settles O9, by the branches of the byte step. -/
theorem frmFeedByteStep : Obligations.FrmFeedByteStep := by
  unfold Obligations.FrmFeedByteStep
  intro s b hf ha
  dsimp only
  have hfeed : feed s.cfg s.decoder s.port.a = byteStep s.cfg s.decoder b := by rw [ha]; rfl
  by_cases he : s.ep = true
  · have hbyte := hfeed.trans (byteStep_of_ep hf he b)
    rw [if_pos he]
    by_cases hflag : b = s.cfg.escFlag
    · rw [if_pos hflag] at hbyte ⊢
      exact exec_frmFeed_of_app hf hbyte
    · rw [if_neg hflag] at hbyte ⊢
      by_cases hesc : b = s.cfg.escEsc
      · rw [if_pos hesc] at hbyte ⊢
        exact exec_frmFeed_of_app hf hbyte
      · rw [if_neg hesc] at hbyte ⊢
        exact exec_frmFeed_of_app hf hbyte
  · rw [if_neg he]
    have he : s.ep = false := Bool.eq_false_iff.mpr he
    by_cases hflag : b = s.cfg.flag
    · subst hflag
      rw [if_pos rfl]
      by_cases hb : s.buf = []
      · rw [if_neg (not_not.mpr hb)]
        exact exec_frmFeed_of_feed hf (hfeed.trans (byteStep_flag_of_nil hf he hb))
      · rw [if_pos hb]
        exact exec_frmFeed_of_feed hf (hfeed.trans (byteStep_flag_of_ne_nil hf he hb))
    · rw [if_neg hflag]
      by_cases hesc : b = s.cfg.esc
      · subst hesc
        rw [if_pos rfl]
        exact exec_frmFeed_of_feed hf (hfeed.trans (byteStep_esc hf he hflag))
      · rw [if_neg hesc]
        have hbyte := hfeed.trans (byteStep_plain hf he hflag hesc)
        exact exec_frmFeed_of_app hf (hbyte.trans (by simp [State.decoder, he]))

/-- Settles O10: without a capacity no byte step sets the mark. -/
theorem frmFeedAcceptsEveryChunk : Obligations.FrmFeedAcceptsEveryChunk := by
  unfold Obligations.FrmFeedAcceptsEveryChunk
  intro s hf hcap
  rcases hd : feed s.cfg s.decoder s.port.a with ⟨buf, ep, fault, frames⟩
  obtain rfl : fault = s.fault := by
    simpa [hd] using feed_fault_of_no_cap (d := s.decoder) hcap s.port.a
  have nonempty : [] ∉ frames := by
    simpa [hd] using feed_frames_nonempty (c := s.cfg) (d := s.decoder) (by simp) s.port.a
  refine ⟨buf, ep, frames, exec_frmFeed_of_feed hf hd, nonempty, fun ha => ?_⟩
  rw [ha, feed_nil, State.decoder, Decoder.mk.injEq] at hd
  obtain ⟨hbuf, hep, -, hframes⟩ := hd
  exact ⟨hbuf.symm, hep.symm, hframes.symm⟩

/-- Settles O11: the second chunk meets the decoder the first one left. -/
theorem frmFeedChunkingInvariance : Obligations.FrmFeedChunkingInvariance := by
  unfold Obligations.FrmFeedChunkingInvariance
  intro s t u x y fx fy hf hx hfx hy hfy
  obtain ⟨hcfg, htf, hdx⟩ := feed_of_exec_frmFeed hx hfx
  obtain ⟨-, -, hdy⟩ := feed_of_exec_frmFeed hy hfy
  have hdy : feed s.cfg ⟨t.buf, t.ep, none, []⟩ y = ⟨u.buf, u.ep, none, fy⟩ := by
    simpa [State.decoder, hcfg, htf] using hdy
  refine exec_frmFeed_of_feed (s := s.withA (x ++ y)) hf ?_
  have hsplit := feed_append_of_feed hdx y
  simp only [State.withA_cfg] at hsplit
  rw [hdy] at hsplit
  exact hsplit.trans (by simp [hf])

/-- Settles O12: FRM_FEED returns its frames, or stops at an overflow, which only a finite
P_BUF_CAP allows. -/
theorem frmFeedOverflowSetsFault : Obligations.FrmFeedOverflowSetsFault := by
  unfold Obligations.FrmFeedOverflowSetsFault
  intro s t hf h
  rcases exec_cases .frmFeed s with ⟨hi, -⟩ | ⟨hi, -⟩ | ⟨-, hfault, e⟩ | ⟨-, ⟨⟨⟩, hfault⟩, e⟩
  · exact absurd rfl hi
  · cases hi
  · obtain rfl := Host.Outcome.next.inj (e.symm.trans h)
    exact .inl ⟨hfault, _, rfl, rfl⟩
  · obtain rfl := Host.Outcome.next.inj (e.symm.trans h)
    refine .inr ⟨hfault, by rw [← hfault]; rfl, ?_⟩
    cases hcap : s.cfg.bufCap with
    | none =>
      have hnone := feed_fault_of_no_cap (d := s.decoder) hcap s.port.a
      simp [hfault, hf] at hnone
    | some k =>
      refine ⟨k, rfl, fun hk => ?_⟩
      have fit : fitsCap s.cfg s.decoder.buf.length = true := by simpa [fitsCap_iff, hcap] using hk
      exact fitsCap_iff.mp (feed_buf_fits fit s.port.a) k hcap

/-- Settles O13: the first k bytes fill BUF, and the last one does not fit. -/
theorem frmFeedFaultsBeyondCapacity : Obligations.FrmFeedFaultsBeyondCapacity := by
  unfold Obligations.FrmFeedFaultsBeyondCapacity
  intro s k hf hb he hcap hlen hplain
  obtain ⟨b, hlast⟩ : ∃ b, s.port.a.drop k = [b] :=
    List.length_eq_one_iff.mp (by rw [List.length_drop]; omega)
  have hsplit : s.port.a = s.port.a.take k ++ [b] := by rw [← hlast, List.take_append_drop]
  have htake : (s.port.a.take k).length = k := by rw [List.length_take]; omega
  have hfeed := feed_plain_beyond (c := s.cfg) (d := s.decoder) hf he (hsplit ▸ hplain)
    (by simp [fitsCap, hcap, hb, htake]) (by simp [fitsCap, hcap, hb, htake])
  rw [← hsplit, s.decoder_buf, hb, List.nil_append] at hfeed
  exact exec_frmFeed_of_overflow hfeed

/-- Settles O14: the run is one feed of the wire string. -/
theorem framerReversibleInAnyChunking : Obligations.FramerReversibleInAnyChunking := by
  unfold Obligations.FramerReversibleInAnyChunking
  intro s d chunks wf hf hb he hd hcap hp hq hwire
  have hfeed : feed s.cfg s.decoder (chunks.map (·.args.a)).flatten = ⟨[], false, none, [d]⟩ := by
    have h := feed_frameEncode (d := s.decoder) wf hf he hb hd (fitsCap_iff.mpr hcap)
    rw [hwire]
    exact h.trans (by simp [State.decoder, hf, hb, he])
  obtain ⟨t, rs, hrun, hfinal, hres, hlen, hok, ht⟩ :=
    runSteps_frmFeeds wf hf hp hq (by rw [hfeed])
  rw [hfeed, Decoder.mk.injEq] at ht
  obtain ⟨hbuf, hep, -, hframes⟩ := ht
  exact ⟨t, rs, hrun, hfinal, by rw [State.observation, hres, ← hbuf, ← hep], hlen, hok,
    hframes.symm⟩

/-- Settles O16: what the first delimiter of the wire string meets decides the frames emitted. -/
theorem staleDecoderStateCorruptsReply : Obligations.StaleDecoderStateCorruptsReply := by
  unfold Obligations.StaleDecoderStateCorruptsReply
  intro s d wf hf hcap hd ha
  have fit : ∀ n, fitsCap s.cfg n = true := fun _ => fitsCap_of_none hcap
  have ha : s.port.a = frameEncode s.cfg d := ha
  refine ⟨fun he hb => ?_, fun he => ?_, _, rfl, ?_⟩
  · have h := feed_frameEncode_of_partial (d := s.decoder) wf hf he hb hd (fit _)
    exact exec_frmFeed_of_feed hf (ha ▸ h)
  · have h := feed_frameEncode_of_ep (d := s.decoder) wf hf he hd (fit _)
    exact exec_frmFeed_of_feed hf (ha ▸ h)
  · exact exec_frmFeed_frameEncode (by exact wf) (by exact hf) rfl rfl hd (fit _) ha

/-- Settles O7: the octets of a well-formed configuration differ. -/
theorem escapeMap : Obligations.EscapeMap := by
  unfold Obligations.EscapeMap
  intro c hc
  obtain ⟨hne, -⟩ := octets_of_configWf hc
  exact ⟨escByte_flag, escByte_esc hne, fun _ => escByte_plain, fun d b => escAll_cons b d, rfl⟩

/-- Settles O15: neither delimiter finds a byte in BUF. -/
theorem emptyPayloadEmitsNoFrame : Obligations.EmptyPayloadEmitsNoFrame := by
  unfold Obligations.EmptyPayloadEmitsNoFrame
  intro s hf hb he ha
  have hflag : byteStep s.cfg s.decoder s.cfg.flag = s.decoder := byteStep_flag_of_nil hf he hb
  refine exec_frmFeed_of_feed hf ?_
  rw [ha, feed_cons, hflag, feed_cons, hflag]
  rfl

/-- Settles O17. -/
theorem frmRstDiscardsPartialFrame : Obligations.FrmRstDiscardsPartialFrame := by
  unfold Obligations.FrmRstDiscardsPartialFrame
  refine fun s => ⟨rfl, fun hb he => ?_⟩
  have hd : s.decoder = ⟨[], false, s.fault, []⟩ := by simp [State.decoder, hb, he]
  have hreset : exec .frmRst s = .next ((s.withDecoder ⟨[], false, s.fault, []⟩).ret {}) := rfl
  rw [hreset, ← hd, s.withDecoder_decoder]
  rfl

end Sys2Proof.Proofs

/-! PROOFS. 41_checksum.md: the trailer of a string, what the checksum operations answer, and the
one-byte errors a checksum detects (O18 to O22). -/

namespace Sys2Proof.Machine

section Checksum

variable {c : Config} {s : State}

/-! ### The trailer -/

/-- T(d) is the two bytes of the checksum in the configured order (41_checksum.md R108). -/
theorem exists_trailer_bytes (c : Config) (d : Bytes) : ∃ lo hi : Byte,
    (hi ++ lo : BitVec 16) = checksumOf c.cksum d ∧
      trailer c d = if c.ckOrder = .le then [lo, hi] else [hi, lo] := by
  have hbytes (k : BitVec 16) : k = (k.extractLsb' 8 8 ++ k.extractLsb' 0 8 : BitVec 16) :=
    eq_iff_field_eq.mpr ((field_eq_append_iff (m := 8) (n := 8)).mpr ⟨rfl, rfl⟩)
  refine ⟨_, _, (hbytes _).symm, ?_⟩
  unfold trailer
  cases c.ckOrder <;> rfl

theorem trailer_eq_iff {x y : Bytes} :
    trailer c x = trailer c y ↔ checksumOf c.cksum x = checksumOf c.cksum y := by
  refine ⟨fun h => ?_, fun h => by unfold trailer; rw [h]⟩
  obtain ⟨lo, hi, hx, tx⟩ := exists_trailer_bytes c x
  obtain ⟨lo', hi', hy, ty⟩ := exists_trailer_bytes c y
  rw [tx, ty] at h
  rw [← hx, ← hy]
  split at h
  · obtain ⟨rfl, rfl⟩ : lo = lo' ∧ hi = hi' := by simpa using h
    rfl
  · obtain ⟨rfl, rfl⟩ : hi = hi' ∧ lo = lo' := by simpa using h
    rfl

/-- CK_VERIFY's comparison holds exactly for the strings CK_APPEND makes (41_checksum.md R110). -/
theorem verifies_iff {x : Bytes} : verifies c x = true ↔ ∃ d, x = d ++ trailer c d := by
  constructor
  · intro h
    have hlen : 2 ≤ x.length := by
      by_contra hshort
      simp [verifies_of_short (Nat.lt_of_not_le hshort)] at h
    have ht : (x.drop (x.length - 2)).length = 2 := by rw [List.length_drop]; omega
    have hsplit : x.take (x.length - 2) ++ x.drop (x.length - 2) = x := List.take_append_drop _ x
    rw [← hsplit, verifies_append_iff _ _ ht] at h
    exact ⟨_, by rw [← h, hsplit]⟩
  · rintro ⟨d, rfl⟩
    exact (verifies_append_iff d _ (trailer_length d)).mpr rfl

/-! ### What CK_APPEND, CK_VERIFY and CK_STRIP answer -/

theorem exec_ckAppend_eq_iff {p : Bytes} :
    exec .ckAppend s = .next (s.ret { r := p }) ↔ p = s.port.a ++ trailer s.cfg s.port.a := by
  simp [exec, execCkAppend, State.ret, eq_comm]

theorem exec_ckVerify_eq_true_iff : exec .ckVerify s = .next (s.ret { y := .bool true }) ↔
    ∃ d, s.port.a = d ++ trailer s.cfg d := by
  rw [← verifies_iff]
  simp [exec, execCkVerify, State.ret]

theorem exec_ckStrip_of_short (h : s.port.a.length < 2) :
    exec .ckStrip s = .next (s.raise .eShort 0) :=
  if_pos h

/-! ### Strings that differ in one byte -/

theorem xor_bit_ne (b : Byte) {k : Nat} (hk : k < 8) : b ^^^ (1#8 <<< k) ≠ b := by
  intro h
  have hbit : 1#8 <<< k = 0#8 := by simpa using h
  revert hbit
  interval_cases k <;> decide

/-- A flipped bit changes one byte of the string. -/
theorem exists_flipBit_eq {x : Bytes} {i k : Nat} (hi : i < x.length) (hk : k < 8) :
    ∃ pre b b' post, b' ≠ b ∧ x = pre ++ b :: post ∧ flipBit x i k = pre ++ b' :: post :=
  ⟨x.take i, x[i], _, x.drop (i + 1), xor_bit_ne _ hk, by simp,
    List.modify_eq_take_cons_drop hi⟩

theorem flipBit_append_left {x : Bytes} {i : Nat} (hi : i < x.length) (y : Bytes) (k : Nat) :
    flipBit (x ++ y) i k = flipBit x i k ++ y := by
  have hxy : i < (x ++ y).length := by rw [List.length_append]; omega
  unfold flipBit
  rw [List.modify_eq_take_cons_drop hi, List.modify_eq_take_cons_drop hxy,
    List.getElem_append_left hi, List.take_append_of_le_length hi.le,
    List.drop_append_of_le_length hi]
  simp

theorem flipBit_append_right (x y : Bytes) (i k : Nat) :
    flipBit (x ++ y) (x.length + i) k = x ++ flipBit y i k :=
  List.modifyTailIdx_add _ i x y

/-- The checksum tells apart any two strings that differ in one byte. -/
def DetectsByteErrors (k : Checksum) : Prop :=
  ∀ (pre post : Bytes) (b b' : Byte), b' ≠ b →
    checksumOf k (pre ++ b' :: post) ≠ checksumOf k (pre ++ b :: post)

/-- CK_SINGLE_BIT follows for any such checksum, in either trailer order (41_checksum.md R112). -/
theorem ckSingleBit_of_detectsByteErrors (h : DetectsByteErrors c.cksum) : CkSingleBit c := by
  intro d i k hi hk
  rw [Bool.eq_false_iff]
  rcases Nat.lt_or_ge i d.length with hd | hd
  case inl =>
    obtain ⟨pre, b, b', post, hb, hsplit, hflip⟩ := exists_flipBit_eq hd hk
    rw [flipBit_append_left hd, Ne, verifies_append_iff _ _ (trailer_length d), trailer_eq_iff,
      hflip, hsplit]
    exact (h pre post b b' hb).symm
  case inr =>
    obtain ⟨j, rfl⟩ := Nat.exists_eq_add_of_le hd
    have hj : j < (trailer c d).length := by rw [trailer_length]; omega
    obtain ⟨pre, b, b', post, hb, hsplit, hflip⟩ := exists_flipBit_eq hj hk
    have hlen : (flipBit (trailer c d) j k).length = 2 := by simp [flipBit]
    rw [flipBit_append_right, Ne, verifies_append_iff _ _ hlen, hflip, hsplit]
    simpa using hb

/-! ### The CRC -/

section Crc

variable {poly : BitVec 16}

/-- Bit 0 of the shifted register tells whether an odd polynomial was subtracted, so that a shift
can be undone. -/
theorem crcShift_injective (h : poly.getLsbD 0 = true) : Function.Injective (crcShift poly) := by
  intro x y hxy
  have hbit : ∀ r, (crcShift poly r).getLsbD 0 = r.msb := by
    intro r
    unfold crcShift
    cases r.msb <;> simp [h]
  have hmsb : x.msb = y.msb := by rw [← hbit, ← hbit, hxy]
  have hshift : x <<< 1 = y <<< 1 := by
    unfold crcShift at hxy
    rw [hmsb] at hxy
    split at hxy
    · exact (BitVec.xor_left_inj poly).mp hxy
    · exact hxy
  rw [BitVec.msb_eq_decide, BitVec.msb_eq_decide, decide_eq_decide] at hmsb
  bv_omega

theorem crcByte_injective_reg (h : poly.getLsbD 0 = true) (b : Byte) :
    Function.Injective (crcByte poly · b) := fun _ _ hxy =>
  (BitVec.xor_left_inj _).mp ((crcShift_injective h).iterate 8 hxy)

theorem crcByte_injective_byte (h : poly.getLsbD 0 = true) (reg : BitVec 16) :
    Function.Injective (crcByte poly reg) := by
  intro b b' hb
  have hshift := (BitVec.xor_right_inj _).mp ((crcShift_injective h).iterate 8 hb)
  bv_omega

/-- Equal bytes keep different registers different. -/
theorem crcFold_injective (h : poly.getLsbD 0 = true) (x : Bytes) :
    Function.Injective (x.foldl (crcByte poly)) := by
  induction x with
  | nil => exact Function.injective_id
  | cons b x ih => exact ih.comp (crcByte_injective_reg h b)

theorem crc16_detectsByteErrors (h : poly.getLsbD 0 = true) (init xorOut : BitVec 16) :
    DetectsByteErrors (.crc16 poly init xorOut) := by
  intro pre post b b' hb heq
  simp only [checksumOf, List.foldl_append, List.foldl_cons, BitVec.xor_left_inj] at heq
  exact hb (crcByte_injective_byte h _ (crcFold_injective h post heq))

/-- The initial configuration with the CRC of polynomial 0, which shifts every byte out of the
register and so keeps nothing of the data. -/
def zeroCrc : Config := { Config.initial with cksum := .crc16 0 0 0 }

theorem not_ckSingleBit_zeroCrc : ¬ CkSingleBit zeroCrc := by
  intro h
  have hflipped : verifies zeroCrc (flipBit ([0] ++ trailer zeroCrc [0]) 0 0) = true := by decide
  rw [h [0] 0 0 (by decide) (by decide)] at hflipped
  contradiction

end Crc

end Checksum

end Sys2Proof.Machine

namespace Sys2Proof.Proofs

open Sys2Proof.Machine

/-- Settles O22: an odd CRC detects every one-byte error; the CRC of polynomial 0 misses one. -/
theorem singleBitErrorsUnderCrc : Obligations.SingleBitErrorsUnderCrc := by
  unfold Obligations.SingleBitErrorsUnderCrc
  constructor
  · intro c poly init xorOut hc hodd
    exact ckSingleBit_of_detectsByteErrors (hc ▸ crc16_detectsByteErrors hodd init xorOut)
  · exact ⟨zeroCrc, configWf_initial, not_ckSingleBit_zeroCrc⟩

/-- Settles O18: CK_APPEND appends T(A), whose bytes are those of the checksum. -/
theorem ckAppendAddsTrailer : Obligations.CkAppendAddsTrailer := by
  unfold Obligations.CkAppendAddsTrailer
  intro s
  obtain ⟨lo, hi, hk, ht⟩ := exists_trailer_bytes s.cfg s.port.a
  exact ⟨lo, hi, hk, ht ▸ rfl⟩

/-- Settles O19: Y is what the comparison answers. -/
theorem ckVerifyIffTrailerMatches : Obligations.CkVerifyIffTrailerMatches := by
  unfold Obligations.CkVerifyIffTrailerMatches
  exact fun s => ⟨verifies s.cfg s.port.a, rfl, verifies_iff, verifies_of_short⟩

/-- Settles O21: for the third law both sides say that d is some data followed by its trailer. -/
theorem checksumLaws : Obligations.ChecksumLaws := by
  unfold Obligations.ChecksumLaws
  refine fun s d => ⟨⟨d ++ trailer s.cfg d, rfl, ?_, ?_⟩, ?_, ?_⟩
  · exact exec_ckVerify_of_trailer (s := s.withA _) rfl
  · exact exec_ckStrip_append (s := s.withA _) rfl (trailer_length d)
  · rintro ⟨e, -, happend⟩
    obtain rfl : d = e ++ trailer s.cfg e := (exec_ckAppend_eq_iff (s := s.withA e)).mp happend
    exact ⟨by simp, exec_ckVerify_of_trailer (s := s.withA _) rfl⟩
  · rintro ⟨-, hverify⟩
    obtain ⟨e, he⟩ := (exec_ckVerify_eq_true_iff (s := s.withA d)).mp hverify
    exact ⟨e, exec_ckStrip_append (s := s.withA d) he (trailer_length e),
      (exec_ckAppend_eq_iff (s := s.withA e)).mpr he⟩

/-- Settles O20, by the two answers of CK_STRIP. -/
theorem ckStripRemovesTwoBytes : Obligations.CkStripRemovesTwoBytes := by
  unfold Obligations.CkStripRemovesTwoBytes
  exact fun s => ⟨fun _ _ _ h => exec_ckStrip_append h rfl, exec_ckStrip_of_short⟩

end Sys2Proof.Proofs

/-! PROOFS. 42_frame_model.md: the bytes of a built frame as numbers, and what FR_VALID answers for two
frames (O23 to O25, O27, O28). -/

namespace Sys2Proof.Machine

section FrameModel

variable {s : State}

/-! ### The bytes of a built frame -/

/-- The control byte of R119 as a number. -/
theorem requestControl_eq_ofNat (cmd : BitVec 5) :
    requestControl cmd = BitVec.ofNat 8 (0x80 + cmd.toNat) := by
  revert cmd; decide +kernel

/-- The control byte of R120 as a number. -/
theorem replyControl_eq_ofNat (cmd : BitVec 5) (ack : Bool) :
    replyControl cmd ack = BitVec.ofNat 8 ((if ack then 0x20 else 0) + cmd.toNat) := by
  revert cmd ack; decide +kernel

theorem ser_requestFrame (dest src : BitVec 7) (cmd : BitVec 5) (p : Bytes) :
    ser (requestFrame dest src cmd p) =
      [BitVec.ofNat 8 dest.toNat, BitVec.ofNat 8 src.toNat,
        BitVec.ofNat 8 (0x80 + cmd.toNat)] ++ p := by
  simp only [BitVec.ofNat_toNat, ← requestControl_eq_ofNat]; rfl

theorem ser_replyFrame (dest src : BitVec 7) (cmd : BitVec 5) (ack : Bool) (p : Bytes) :
    ser (replyFrame dest src cmd ack p) =
      [BitVec.ofNat 8 dest.toNat, BitVec.ofNat 8 src.toNat,
        BitVec.ofNat 8 ((if ack then 0x20 else 0) + cmd.toNat)] ++ p := by
  simp only [BitVec.ofNat_toNat, ← replyControl_eq_ofNat]; rfl

theorem address_le (a : BitVec 7) : (a.setWidth 8 : Byte).toNat ≤ 127 :=
  address_toNat a ▸ Nat.le_of_lt_succ a.isLt

theorem exec_frMkreq_of_unassigned {cmd : BitVec 5} (h : knownCommand cmd = false)
    (dest src : BitVec 7) : exec (.frMkreq dest src cmd) s = .next (s.raise .eIllegalOp 0) :=
  congrArg _ (s.build_of_unknown dest src cmd (requestControl cmd) h)

theorem exec_frMkrep_of_unassigned {cmd : BitVec 5} (h : knownCommand cmd = false)
    (dest src : BitVec 7) (ack : Bool) :
    exec (.frMkrep dest src cmd ack) s = .next (s.raise .eIllegalOp 0) :=
  congrArg _ (s.build_of_unknown dest src cmd (replyControl cmd ack) h)

theorem knownCommand_eq_false_iff {cmd : BitVec 5} :
    knownCommand cmd = false ↔ cmd.toNat ∉ [0, 2, 3, 7, 8, 9, 10, 11] := by
  rw [← knownCommand_iff, Bool.not_eq_true]

/-! ### The bits of a control byte as numbers -/

theorem reqBit_toNat (k : Byte) : (reqBit k).toNat = k.toNat / 128 := by
  have hbit : (reqBit k).toNat = k.toNat / 2 ^ 7 % 2 := Nat.toNat_testBit k.toNat 7
  have hk := k.isLt
  omega

theorem ackBit_toNat (k : Byte) : (ackBit k).toNat = k.toNat / 32 % 2 :=
  Nat.toNat_testBit k.toNat 5

/-! ### What FR_VALID answers -/

/-- The result of validating the reply p against the request q (42_frame_model.md R124, R125). -/
def verdict (q p : Frame) : Result :=
  if cmdBits p.control ≠ cmdBits q.control then errorResult .eMismatch 1
  else if reqBit p.control = false ∧ ackBit p.control = false then
    { errorResult .eNack 0 with r := p.payload }
  else if reqBit p.control = true then errorResult .eMismatch 2
  else {}

theorem exec_frValid_of_parse {q p : Frame} (hq : parse s.port.a = some q)
    (hp : parse s.port.b = some p) : exec .frValid s = .next (s.ret (verdict q p)) := by
  simp only [exec, execFrValid, hq, hp, verdict, State.raise_eq_ret]
  split_ifs <;> rfl

theorem exec_frValid_ser (s : State) {q p : Frame} {v : Result} (h : verdict q p = v) :
    exec .frValid (s.withAB (ser q) (ser p)) = .next ((s.withAB (ser q) (ser p)).ret v) :=
  h ▸ exec_frValid_of_parse (parse_ser q) (parse_ser p)

theorem exec_frValid_of_short_request (h : s.port.a.length < 3) :
    exec .frValid s = .next (s.raise .eFraming 1) := by
  simp only [exec, execFrValid, parse_eq_none_iff.mpr h]

theorem exec_frValid_of_short_reply (ha : 3 ≤ s.port.a.length) (hb : s.port.b.length < 3) :
    exec .frValid s = .next (s.raise .eFraming 2) := by
  obtain ⟨q, hq⟩ : ∃ q, parse s.port.a = some q :=
    Option.ne_none_iff_exists'.mp fun h => absurd (parse_eq_none_iff.mp h) (by omega)
  simp only [exec, execFrValid, hq, parse_eq_none_iff.mpr hb]

/-- The checks over the control bytes as numbers. -/
theorem verdict_eq (q p : Frame) : verdict q p =
    if p.control.toNat % 32 ≠ q.control.toNat % 32 then { status := 0x03#8, detail := 1 }
    else if p.control.toNat / 128 = 0 ∧ p.control.toNat / 32 % 2 = 0 then
      { status := 0x02#8, r := p.payload }
    else if p.control.toNat / 128 = 1 then { status := 0x03#8, detail := 2 }
    else {} := by
  simp only [← cmdBits_toNat, ← reqBit_toNat, ← ackBit_toNat, ne_eq, BitVec.toNat_inj,
    Bool.toNat_eq_zero, Bool.toNat_eq_one]
  rfl

variable (a b a' b' : BitVec 7) (c : BitVec 5) (p r : Bytes)

/-- A reply to another command does not match, whatever its ACK bit (42_frame_model.md R127). -/
theorem verdict_reply_of_ne {c c' : BitVec 5} (h : c ≠ c') (ack : Bool) :
    verdict (requestFrame a b c p) (replyFrame a' b' c' ack r) = errorResult .eMismatch 1 := by
  obtain ⟨hq, -⟩ := requestControl_bits c
  obtain ⟨hp, -⟩ := replyControl_bits c' ack
  simp [verdict, requestFrame, replyFrame, hq, hp, h.symm]

/-- A reply to the request's command is told apart by its ACK bit (42_frame_model.md R127). -/
theorem verdict_reply (ack : Bool) :
    verdict (requestFrame a b c p) (replyFrame a' b' c ack r) =
      if ack then {} else { errorResult .eNack 0 with r := r } := by
  obtain ⟨hq, -⟩ := requestControl_bits c
  obtain ⟨hp, hreq, -, hack⟩ := replyControl_bits c ack
  cases ack <;> simp [verdict, requestFrame, replyFrame, hq, hp, hreq, hack]

/-- A request in place of the reply does not match (42_frame_model.md R127). -/
theorem verdict_request :
    verdict (requestFrame a b c p) (requestFrame a' b' c r) = errorResult .eMismatch 2 := by
  obtain ⟨-, hreq, -⟩ := requestControl_bits c
  simp [verdict, requestFrame, hreq]

/-! ### Illegal words of format N -/

theorem illegalWord_of_formatN {w : OpWord} (hop : opField w ∈ opsN) (h : w.toNat % 2 ^ 24 ≠ 0) :
    illegalWord w := by
  refine illegalWord_iff.mpr (.inr (.inl (.inl ⟨hop, fun h0 => h ?_⟩)))
  simpa using field_eq_iff.mp h0

theorem frValid_word_illegal {low : Nat} (h0 : 0 < low) (h24 : low < 2 ^ 24) :
    illegalWord (BitVec.ofNat 32 (0x33000000 + low)) := by
  have hw : (BitVec.ofNat 32 (0x33000000 + low)).toNat = 0x33000000 + low :=
    Nat.mod_eq_of_lt (by omega)
  have hop : opField (BitVec.ofNat 32 (0x33000000 + low)) = 0x33#8 := by
    refine field_eq_iff.mpr ?_
    rw [hw, BitVec.toNat_ofNat]
    omega
  exact illegalWord_of_formatN (hop ▸ by decide) (by omega)

end FrameModel

end Sys2Proof.Machine

namespace Sys2Proof.Proofs

open Sys2Proof.Machine

/-- Settles O23, by the two answers of FR_MKREQ. -/
theorem frMkreqBuildsRequest : Obligations.FrMkreqBuildsRequest := by
  unfold Obligations.FrMkreqBuildsRequest
  refine fun s dest src cmd => ⟨fun h => ?_, fun h => ?_⟩
  · rw [← ser_requestFrame]
    exact exec_frMkreq ((knownCommand_iff cmd).mpr h) dest src
  · exact exec_frMkreq_of_unassigned (knownCommand_eq_false_iff.mpr h) dest src

/-- Settles O24, by the two answers of FR_MKREP. -/
theorem frMkrepBuildsReply : Obligations.FrMkrepBuildsReply := by
  unfold Obligations.FrMkrepBuildsReply
  refine fun s dest src cmd ack => ⟨fun h => ?_, fun h => ?_⟩
  · rw [← ser_replyFrame]
    exact exec_frMkrep ((knownCommand_iff cmd).mpr h) dest src ack
  · exact exec_frMkrep_of_unassigned (knownCommand_eq_false_iff.mpr h) dest src ack

/-- Settles O25, from the fields of the two control bytes. -/
theorem builtFramesSatisfyInvariants : Obligations.BuiltFramesSatisfyInvariants := by
  unfold Obligations.BuiltFramesSatisfyInvariants
  intro s dest src cmd ack hk
  obtain ⟨-, request_req, request_rsv, request_ack⟩ := requestControl_bits cmd
  obtain ⟨-, reply_req, reply_rsv, reply_ack⟩ := replyControl_bits cmd ack
  exact ⟨⟨_, _, _, _, exec_frMkreq hk dest src, request_req, request_rsv, request_ack,
      address_le dest, address_le src⟩,
    ⟨_, _, _, _, exec_frMkrep hk dest src ack, reply_req, reply_rsv, reply_ack,
      address_le dest, address_le src⟩⟩

/-- Settles O27: the word is checked before the operands, the lengths before the control bytes. -/
theorem frValidChecksInOrder : Obligations.FrValidChecksInOrder := by
  unfold Obligations.FrValidChecksInOrder
  refine fun s => ⟨fun low h0 h24 => runWord_of_illegalWord (frValid_word_illegal h0 h24) s,
    exec_frValid_of_short_request, exec_frValid_of_short_reply, ?_⟩
  intro qd qs qk pd ps pk qp pp ha hb
  have hvalid := exec_frValid_of_parse (ha ▸ parse_cons qd qs qk qp) (hb ▸ parse_cons pd ps pk pp)
  rw [verdict_eq] at hvalid
  exact hvalid

/-- Settles O28: each law is one verdict on two built frames. -/
theorem frameModelLaws : Obligations.FrameModelLaws := by
  unfold Obligations.FrameModelLaws
  intro s a b a' b' c c' p r hc hc'
  refine ⟨_, _, _, _, frameRec (requestFrame a b c p), exec_frMkreq hc a b, exec_frParse_ser s _,
    ?dest, ?src, ?kind, ?cmd, ?known, exec_frMkrep hc b a true, ?ack, exec_frMkrep hc b a false,
    ?nack, exec_frMkreq hc a' b', ?request,
    fun ack => ⟨_, exec_frMkrep hc' a' b' ack, fun hne => ?other⟩⟩
  case dest => exact address_toNat a
  case src => exact address_toNat b
  case kind => rw [frameRec_requestFrame]
  case cmd => rw [frameRec_requestFrame]
  case known => rw [frameRec_requestFrame, hc]
  case ack => exact exec_frValid_ser s (verdict_reply a b b a c p r true)
  case nack => exact exec_frValid_ser s (verdict_reply a b b a c p r false)
  case request => exact exec_frValid_ser s (verdict_request a b a' b' c p r)
  case other => exact exec_frValid_ser s (verdict_reply_of_ne a b a' b' p r hne ack)

end Sys2Proof.Proofs

/-! PROOFS. 43_fixed_point.md: the answers of Q_ENC and Q_DEC, the range of a descriptor in raw
integers, clamping, the binary64 pattern of a dyadic rational, and little-endian fields (O30 to O41). -/

namespace Sys2Proof.Machine

section FixedPoint

variable {f : QFormat} {s : State}

/-! ### What the operations answer -/

theorem exec_qEnc_of_saturate {y : Rat} (hw : hasWidth f = true)
    (hy : saturate f (real64 s.port.x.f64) = some y) :
    exec (.qEnc f) s = .next (s.ret
      { y := .int (toPattern (qWidth f) (trunc (y * pow2 f.fb.toNat)))
        range := rangeFlag f (real64 s.port.x.f64) }) := by
  simp only [exec, execQEnc, hw, hy, if_true]

theorem exec_qEnc_of_nan (hw : hasWidth f = true) (hx : real64 s.port.x.f64 = .nan) :
    exec (.qEnc f) s = .next (s.raise .eNan 0) := by
  simp only [exec, execQEnc, hw, hx, saturate, if_true]

theorem exec_qEnc_of_no_width (hw : hasWidth f = false) :
    exec (.qEnc f) s = .next (s.raise .eFormat 0) := by
  simp [exec, execQEnc, hw]

theorem exec_qDec (hw : hasWidth f = true) (h : s.port.x.u32.toNat < 2 ^ qWidth f) :
    exec (.qDec f) s = .next (s.ret { y := .rat (qValue f s.port.x.u32.toNat) }) := by
  simp only [exec, execQDec, hw, if_true, if_neg (Nat.not_le.mpr h)]

theorem exec_qDec_of_wide (hw : hasWidth f = true) (h : 2 ^ qWidth f ≤ s.port.x.u32.toNat) :
    exec (.qDec f) s = .next (s.raise .eOperand 0) := by
  simp only [exec, execQDec, hw, if_true, if_pos h]

theorem exec_qDec_of_no_width (hw : hasWidth f = false) :
    exec (.qDec f) s = .next (s.raise .eFormat 0) := by
  simp [exec, execQDec, hw]

theorem exec_lePut_of_wide {n : FieldWidth} (h : 2 ^ (8 * n.bytes) ≤ s.port.x.u32.toNat) :
    exec (.lePut n) s = .next (s.raise .eOperand 0) :=
  if_pos h

theorem exec_leGet_of_past_end {n : FieldWidth} {ofs : BitVec 16}
    (h : s.port.a.length < ofs.toNat + n.bytes) :
    exec (.leGet n ofs) s = .next (s.raise .eLength 0) := by
  simp only [exec, execLeGet, readField_eq_none_iff.mpr h]

/-! ### Widths -/

theorem sigWidth_eq (f : QFormat) :
    sigWidth f = f.ib.toNat + f.fb.toNat + if f.signed then 1 else 0 := by
  cases h : f.signed <;> simp [sigWidth, h]

theorem hasWidth_eq_false_iff : hasWidth f = false ↔ 32 < sigWidth f := by
  rw [← Bool.not_eq_true, hasWidth_iff, Nat.not_le]

theorem qWidth_mem (f : QFormat) : qWidth f ∈ [8, 16, 32] := by
  simpa using qWidth_cases f

/-- No width of 8, 16 and 32 that holds t bits is less than W (43_fixed_point.md R130). -/
theorem qWidth_le {w : Nat} (hw : w ∈ [8, 16, 32]) (h : sigWidth f ≤ w) : qWidth f ≤ w := by
  simp only [List.mem_cons, List.not_mem_nil, or_false] at hw
  unfold qWidth
  split
  · omega
  · split <;> omega

theorem qWidth_le_32 (f : QFormat) : qWidth f ≤ 32 := by
  rcases qWidth_cases f with h | h | h <;> omega

theorem two_pow_qWidth_le (f : QFormat) : 2 ^ qWidth f ≤ 2 ^ 32 :=
  Nat.pow_le_pow_right (by decide) (qWidth_le_32 f)

/-- The descriptor with t = 0 (43_fixed_point.md R130). -/
theorem eq_of_sigWidth_eq_zero (h : sigWidth f = 0) : f = ⟨false, 0, 0⟩ := by
  obtain ⟨signed, ib, fb⟩ := f
  obtain ⟨⟨hib, hfb⟩, hs⟩ : (ib.toNat = 0 ∧ fb.toNat = 0) ∧ signed = false := by
    simpa only [sigWidth, Nat.add_eq_zero_iff, Bool.toNat_eq_zero] using h
  rw [BitVec.eq_of_toNat_eq (y := 0) hib, BitVec.eq_of_toNat_eq (y := 0) hfb, hs]

/-! ### The raw range -/

/-- `rlo`, the least raw value Q_ENC produces (43_fixed_point.md R132). -/
def rawLo (f : QFormat) : Int := if f.signed then -2 ^ (f.ib.toNat + f.fb.toNat) else 0

/-- `rhi`, the greatest raw value Q_ENC produces (43_fixed_point.md R132). -/
def rawHi (f : QFormat) : Int := 2 ^ (f.ib.toNat + f.fb.toNat) - 1

theorem rawLo_cast (f : QFormat) : (rawLo f : Rat) = qLo f * pow2 f.fb.toNat := (qLo_mul f).symm

theorem rawHi_cast (f : QFormat) : (rawHi f : Rat) = qHi f * pow2 f.fb.toNat := (qHi_mul f).symm

theorem rawHi_nonneg (f : QFormat) : 0 ≤ rawHi f := by
  have : (1 : Int) ≤ 2 ^ (f.ib.toNat + f.fb.toNat) := one_le_pow₀ (by norm_num)
  unfold rawHi; omega

theorem rawLo_nonpos (f : QFormat) : rawLo f ≤ 0 := by
  have : (0 : Int) < 2 ^ (f.ib.toNat + f.fb.toNat) := by positivity
  unfold rawLo; split <;> omega

theorem rawLo_le_rawHi (f : QFormat) : rawLo f ≤ rawHi f := (rawLo_nonpos f).trans (rawHi_nonneg f)

theorem toPattern_of_nonneg {w : Nat} {r : Int} (h : 0 ≤ r) : toPattern w r = r :=
  if_neg (not_lt.mpr h)

theorem toPattern_rawLo (f : QFormat) : toPattern (qWidth f) (rawLo f) =
    if f.signed then 2 ^ qWidth f - 2 ^ (f.ib.toNat + f.fb.toNat) else 0 := by
  have : (0 : Int) < 2 ^ (f.ib.toNat + f.fb.toNat) := by positivity
  cases hs : f.signed with
  | false => simp [rawLo, hs, toPattern]
  | true =>
    simp only [rawLo, hs, if_true, toPattern, neg_lt_zero, this]
    ring

/-! ### The patterns of a descriptor -/

/-- The two's-complement map undoes that of Q_DEC on every W-bit pattern (43_fixed_point.md R138). -/
theorem toPattern_fromPattern {n : Nat} (h : n < 2 ^ qWidth f) :
    toPattern (qWidth f) (fromPattern f n) = n := by
  have h' : (n : Int) < 2 ^ qWidth f := by exact_mod_cast h
  rw [fromPattern_eq f h]
  unfold toPattern
  split <;> split <;> omega

/-- The sign bit of a signed pattern halves its range (43_fixed_point.md R135). -/
theorem fromPattern_mem_of_signed (hs : f.signed = true) {n : Nat} (h : n < 2 ^ qWidth f) :
    -2 ^ (qWidth f - 1) ≤ fromPattern f n ∧ fromPattern f n < 2 ^ (qWidth f - 1) := by
  have h' : (n : Int) < 2 ^ qWidth f := by exact_mod_cast h
  have hpow : (2 : Int) ^ qWidth f = 2 * 2 ^ (qWidth f - 1) := by
    rw [← pow_succ', Nat.sub_add_cancel (qWidth_pos f)]
  have hcast : ((2 ^ (qWidth f - 1) : Nat) : Int) = 2 ^ (qWidth f - 1) := by push_cast; rfl
  rw [fromPattern_eq f h]
  simp only [hs, true_and]
  split <;> omega

theorem fromPattern_of_unsigned (hs : f.signed = false) (n : Nat) : fromPattern f n = n := by
  simp [fromPattern, hs]

theorem ib_add_fb_of_signed (hs : f.signed = true) (ht : sigWidth f = qWidth f) :
    f.ib.toNat + f.fb.toNat = qWidth f - 1 := by
  rw [← ht, sigWidth_eq, hs, if_pos rfl, Nat.add_sub_cancel]

theorem ib_add_fb_of_unsigned (hs : f.signed = false) (ht : sigWidth f = qWidth f) :
    f.ib.toNat + f.fb.toNat = qWidth f := by
  rw [← ht, sigWidth_eq, hs, if_neg nofun, Nat.add_zero]

/-- When t = W every pattern stands for a value of the raw range (43_fixed_point.md R132). -/
theorem fromPattern_mem (ht : sigWidth f = qWidth f) {n : Nat} (h : n < 2 ^ qWidth f) :
    rawLo f ≤ fromPattern f n ∧ fromPattern f n ≤ rawHi f := by
  have h' : (n : Int) < 2 ^ qWidth f := by exact_mod_cast h
  cases hs : f.signed with
  | true =>
    have hmem := fromPattern_mem_of_signed hs h
    simp only [rawLo, rawHi, hs, if_true, ib_add_fb_of_signed hs ht]
    omega
  | false =>
    simp only [fromPattern_of_unsigned hs, rawLo, rawHi, hs, ib_add_fb_of_unsigned hs ht,
      Bool.false_eq_true, if_false]
    omega

/-- The v of R137: every pattern stands for an integer v with |v| ≤ 2^32. -/
theorem natAbs_fromPattern_le {n : Nat} (h : n < 2 ^ qWidth f) :
    (fromPattern f n).natAbs ≤ 2 ^ 32 := by
  have h' : (n : Int) < 2 ^ qWidth f := by exact_mod_cast h
  have hw : (2 : Int) ^ qWidth f ≤ 2 ^ 32 := by exact_mod_cast two_pow_qWidth_le f
  rw [fromPattern_eq f h]
  split <;> omega

theorem qValue_eq_iff {n : Nat} {q : Rat} :
    qValue f n = q ↔ (fromPattern f n : Rat) = q * pow2 f.fb.toNat :=
  div_eq_iff (pow2_pos _).ne'

theorem qValue_mul (f : QFormat) (n : Nat) : qValue f n * pow2 f.fb.toNat = fromPattern f n :=
  (qValue_eq_iff.mp rfl).symm

theorem qLo_le_qValue_iff {n : Nat} : qLo f ≤ qValue f n ↔ rawLo f ≤ fromPattern f n := by
  rw [← mul_le_mul_iff_left₀ (pow2_pos f.fb.toNat), ← rawLo_cast, qValue_mul, Int.cast_le]

theorem qValue_le_qHi_iff {n : Nat} : qValue f n ≤ qHi f ↔ fromPattern f n ≤ rawHi f := by
  rw [← mul_le_mul_iff_left₀ (pow2_pos f.fb.toNat), ← rawHi_cast, qValue_mul, Int.cast_le]

/-- A bound of the range whose scaled value is the raw value r is the value of r's pattern. -/
theorem exists_qValue_eq (hw : hasWidth f = true) {r : Int} {q : Rat} (hlo : rawLo f ≤ r)
    (hhi : r ≤ rawHi f) (hq : (r : Rat) = q * pow2 f.fb.toNat) :
    ∃ n < 2 ^ qWidth f, qValue f n = q := by
  obtain ⟨n, -, hn, hv⟩ := toPattern_spec f hw hlo hhi
  exact ⟨n, hn, qValue_eq_iff.mpr (hv ▸ hq)⟩

/-! ### Clamping -/

/-- x clamped to [lo, hi], the y of Q_ENC for a finite x (43_fixed_point.md R134). -/
def clamp (f : QFormat) (x : Rat) : Rat := min (max x (qLo f)) (qHi f)

theorem saturate_finite (f : QFormat) (x : Rat) : saturate f (.finite x) = some (clamp f x) := rfl

variable {x : Rat}

theorem qLo_le_clamp : qLo f ≤ clamp f x := le_min (le_max_right _ _) (qLo_le_qHi f)

theorem clamp_le_qHi : clamp f x ≤ qHi f := min_le_right _ _

theorem clamp_of_mem (hlo : qLo f ≤ x) (hhi : x ≤ qHi f) : clamp f x = x := by
  rw [clamp, max_eq_left hlo, min_eq_left hhi]

theorem clamp_of_lt (h : x < qLo f) : clamp f x = qLo f := by
  rw [clamp, max_eq_right h.le, min_eq_left (qLo_le_qHi f)]

theorem clamp_of_gt (h : qHi f < x) : clamp f x = qHi f :=
  min_eq_right (h.le.trans (le_max_left _ _))

/-- Q_ENC of a finite value (43_fixed_point.md R134). -/
theorem exec_qEnc_of_finite (hw : hasWidth f = true) (hx : real64 s.port.x.f64 = .finite x) :
    exec (.qEnc f) s = .next (s.ret
      { y := .int (toPattern (qWidth f) (trunc (clamp f x * pow2 f.fb.toNat)))
        range := decide (x < qLo f ∨ qHi f < x) }) := by
  rw [exec_qEnc_of_saturate hw (hx ▸ saturate_finite f x), hx, rangeFlag, Bool.decide_or]

/-- The lower bound is a multiple of 2^-FB. -/
theorem truncAt_qLo (f : QFormat) : truncAt f.fb.toNat (qLo f) = qLo f :=
  ((eq_truncAt_iff _ _).mpr ⟨rawLo f, (rawLo_cast f).symm⟩).symm

/-- The upper bound is a multiple of 2^-FB. -/
theorem truncAt_qHi (f : QFormat) : truncAt f.fb.toNat (qHi f) = qHi f :=
  ((eq_truncAt_iff _ _).mpr ⟨rawHi f, (rawHi_cast f).symm⟩).symm

/-- The error of the round trip, for a value that is not clamped (43_fixed_point.md R136). -/
theorem truncAt_spec (k : Nat) (x : Rat) :
    (∃ n : Int, truncAt k x * pow2 k = n) ∧ |truncAt k x| ≤ |x| ∧ |x - truncAt k x| < 1 / pow2 k ∧
      (x = truncAt k x ↔ ∃ n : Int, x * pow2 k = n) :=
  ⟨⟨_, truncAt_mul k x⟩, abs_truncAt_le k x, abs_sub_truncAt_lt k x, eq_truncAt_iff k x⟩

/-! ### Binary64 -/

/-- The binary64 pattern of a sign, a biased exponent and a fraction (00_scope.md R16; PRESUMED,
IEEE 754; log 13). -/
def f64Of (neg : Bool) (e : BitVec 11) (m : BitVec 52) : F64 := BitVec.ofBool neg ++ e ++ m

theorem f64Of_fields (neg : Bool) (e : BitVec 11) (m : BitVec 52) :
    (f64Of neg e m).getLsbD 63 = neg ∧ (f64Of neg e m).extractLsb' 52 11 = e ∧
      (f64Of neg e m).extractLsb' 0 52 = m := by
  have h : (f64Of neg e m).extractLsb' 0 (1 + 11 + 52) = BitVec.ofBool neg ++ e ++ m :=
    BitVec.extractLsb'_eq_self
  obtain ⟨hhead, hm⟩ := field_eq_append_iff.mp h
  obtain ⟨hneg, he⟩ := field_eq_append_iff.mp hhead
  refine ⟨?_, he, hm⟩
  simpa using congrArg (·.getLsbD 0) hneg

/-- The value of a pattern whose exponent is not that of NaN and the infinities. -/
theorem real64_f64Of (neg : Bool) {e : BitVec 11} (m : BitVec 52) (he : e.toNat ≠ 2047) :
    real64 (f64Of neg e m) = .finite
      (if neg then -magnitude64 e.toNat m.toNat else magnitude64 e.toNat m.toNat) := by
  obtain ⟨hneg, hexp, hfrac⟩ := f64Of_fields neg e m
  simp only [real64, hneg, hexp, hfrac, if_neg he]

/-- A normal pattern whose significand is m shifted up to 53 bits: its exponent takes the shift
back. -/
theorem magnitude64_shifted {m j k e fr : Nat} (he : e ≠ 0) (hfr : 2 ^ 52 + fr = m * 2 ^ j)
    (hexp : e + (j + k) = 1075) (hjk : 0 < j + k) : magnitude64 e fr = m / pow2 k := by
  rw [magnitude64, if_neg he, if_neg (by omega), hfr, show 1075 - e = j + k by omega, pow2_eq,
    pow2_eq, pow_add, Nat.cast_mul, Nat.cast_pow, Nat.cast_ofNat, mul_comm (2 ^ j : Rat)]
  exact mul_div_mul_right _ _ (by positivity)

/-- A positive number below 2^52, shifted up until its leading bit is bit 52. -/
theorem exists_normalized {m : Nat} (hpos : 0 < m) (hm : m < 2 ^ 52) :
    ∃ j, 0 < j ∧ j ≤ 52 ∧ 2 ^ 52 ≤ m * 2 ^ j ∧ m * 2 ^ j < 2 ^ 53 := by
  have hlog : m.log2 < 52 := (Nat.log2_lt hpos.ne').mpr hm
  refine ⟨52 - m.log2, by omega, by omega, ?_, ?_⟩
  · calc 2 ^ 52 = 2 ^ m.log2 * 2 ^ (52 - m.log2) := by rw [← pow_add]; congr 1; omega
      _ ≤ m * 2 ^ (52 - m.log2) := Nat.mul_le_mul_right _ (Nat.log2_self_le hpos.ne')
  · calc m * 2 ^ (52 - m.log2) < 2 ^ (m.log2 + 1) * 2 ^ (52 - m.log2) :=
        Nat.mul_lt_mul_of_pos_right Nat.lt_log2_self (by positivity)
      _ = 2 ^ 53 := by rw [← pow_add]; congr 1; omega

/-- A dyadic rational of at most 52 significant bits and no great denominator is a magnitude of
binary64 (43_fixed_point.md R137). -/
theorem exists_magnitude64_eq {m k : Nat} (hm : m < 2 ^ 52) (hk : k ≤ 1022) :
    ∃ (e : BitVec 11) (fr : BitVec 52), e.toNat ≠ 2047 ∧
      magnitude64 e.toNat fr.toNat = m / pow2 k := by
  rcases m.eq_zero_or_pos with rfl | hpos
  · exact ⟨0, 0, by decide, by simp [magnitude64]⟩
  · obtain ⟨j, hj, hj52, hlo, hhi⟩ := exists_normalized hpos hm
    have he : (BitVec.ofNat 11 (1075 - (j + k))).toNat = 1075 - (j + k) := by
      rw [BitVec.toNat_ofNat]; omega
    have hfr : (BitVec.ofNat 52 (m * 2 ^ j - 2 ^ 52)).toNat = m * 2 ^ j - 2 ^ 52 := by
      rw [BitVec.toNat_ofNat]; omega
    refine ⟨BitVec.ofNat 11 (1075 - (j + k)), BitVec.ofNat 52 (m * 2 ^ j - 2 ^ 52), ?_, ?_⟩
    · rw [he]; omega
    · rw [he, hfr]
      exact magnitude64_shifted (j := j) (by omega) (by omega) (by omega) (by omega)

/-- The sign beside a magnitude. -/
theorem exists_real64_eq {v : Int} {k : Nat} (hv : v.natAbs < 2 ^ 52) (hk : k ≤ 1022) :
    ∃ x : F64, real64 x = .finite (v / pow2 k) := by
  obtain ⟨e, fr, he, hmag⟩ := exists_magnitude64_eq hv hk
  refine ⟨f64Of (decide (v < 0)) e fr, ?_⟩
  rw [real64_f64Of _ _ he, hmag, ← neg_div]
  congr 1
  rcases lt_or_ge v 0 with h | h
  · simp [h, Nat.cast_natAbs, abs_of_neg h]
  · simp [h, Nat.cast_natAbs, abs_of_nonneg h]

/-! ### Little-endian fields -/

/-- The field read gives the number below 2^(8n) whose bytes stand at the offset (20_memory.md
R40). -/
theorem exists_readField_eq {a : Bytes} {o : Nat} {n : FieldWidth} (h : o + n.bytes ≤ a.length) :
    ∃ v, readField a o n = some v ∧ v < 2 ^ (8 * n.bytes) ∧
      ∀ k < n.bytes, a[o + k]? = some (BitVec.ofNat 8 (v / 2 ^ (8 * k))) := by
  have hlen : ((a.drop o).take n.bytes).length = n.bytes := by simp; omega
  refine ⟨leVal ((a.drop o).take n.bytes), readField_eq_some_iff.mpr ⟨h, rfl⟩, ?_, fun k hk => ?_⟩
  · simpa only [hlen] using leVal_lt ((a.drop o).take n.bytes)
  · have hbytes := leBytes_leVal ((a.drop o).take n.bytes)
    rw [hlen] at hbytes
    rw [← leBytes_getElem? _ _ _ hk, hbytes, List.getElem?_take_of_lt hk, List.getElem?_drop]

end FixedPoint

end Sys2Proof.Machine

namespace Sys2Proof.Proofs

open Sys2Proof.Machine

/-- Settles O30: the least width by its three cases, t = 0 by the one descriptor that has it. -/
theorem qFormatWidth : Obligations.QFormatWidth := by
  unfold Obligations.QFormatWidth
  intro f s
  rw [← sigWidth_eq]
  refine ⟨hasWidth_iff f, fun h => ?least, fun h => ?zero, fun h => ?noWidth⟩
  case least =>
    exact ⟨qWidth_mem f, sigWidth_le_qWidth f ((hasWidth_iff f).mpr h), fun _ => qWidth_le⟩
  case zero =>
    obtain rfl := eq_of_sigWidth_eq_zero h
    exact ⟨rfl, rfl, by simp [qHi, pow2_eq]⟩
  case noWidth =>
    have hw := hasWidth_eq_false_iff.mpr h
    exact ⟨exec_qEnc_of_no_width hw, exec_qDec_of_no_width hw⟩

/-- Settles O31, over the raw range. -/
theorem qRangeIsRepresentableRange : Obligations.QRangeIsRepresentableRange := by
  unfold Obligations.QRangeIsRepresentableRange
  refine fun f hw ht => ⟨fun raw hraw => ?_, ?_, ?_⟩
  · rw [qLo_le_qValue_iff, qValue_le_qHi_iff]
    exact fromPattern_mem ht hraw
  · exact exists_qValue_eq hw le_rfl (rawLo_le_rawHi f) (rawLo_cast f)
  · exact exists_qValue_eq hw (rawLo_le_rawHi f) le_rfl (rawHi_cast f)

/-- Settles O32: the truncated clamped value stays in the raw range, where it has a pattern. -/
theorem qEncOfFinite : Obligations.QEncOfFinite := by
  unfold Obligations.QEncOfFinite
  intro s f x hw hx
  obtain ⟨hlo, hhi⟩ : rawLo f ≤ trunc (clamp f x * pow2 f.fb.toNat) ∧
      trunc (clamp f x * pow2 f.fb.toNat) ≤ rawHi f := trunc_clamped_mem f x
  obtain ⟨n, hn, hlt, -⟩ := toPattern_spec f hw hlo hhi
  have hexec := exec_qEnc_of_finite hw hx
  rw [hn] at hexec
  simp only [← pow2_eq]
  refine ⟨_, n, hexec, rfl, abs_trunc_le _, abs_sub_trunc_lt_one _, ?_, ?_, hlt, hn.symm⟩
  · rw [← rawLo_cast]; exact Int.cast_le.mpr hlo
  · rw [← rawHi_cast]; exact Int.cast_le.mpr hhi

/-- Settles O33: an infinity is clamped to a bound, whose scaled value is a raw integer. -/
theorem qEncOfNonFinite : Obligations.QEncOfNonFinite := by
  unfold Obligations.QEncOfNonFinite
  refine fun s f hw => ⟨fun hx => exec_qEnc_of_nan hw hx, fun hx => ?_, fun hx => ?_⟩
  · have hy : saturate f (real64 s.port.x.f64) = some (qHi f) := by rw [hx]; rfl
    rw [exec_qEnc_of_saturate hw hy, ← rawHi_cast, trunc_intCast,
      toPattern_of_nonneg (rawHi_nonneg f), hx]
    rfl
  · have hy : saturate f (real64 s.port.x.f64) = some (qLo f) := by rw [hx]; rfl
    rw [exec_qEnc_of_saturate hw hy, ← rawLo_cast, trunc_intCast, toPattern_rawLo, hx]
    rfl

/-- Settles O34, by the arithmetic form of the sign bit. -/
theorem qDecOfPattern : Obligations.QDecOfPattern := by
  unfold Obligations.QDecOfPattern
  refine fun s f hw => ⟨fun h => exec_qDec_of_wide hw h, fun h => ?_⟩
  rw [← fromPattern_eq f h, ← pow2_eq]
  exact exec_qDec hw h

/-- Settles O35: what comes back is the clamped value truncated at 2^-FB, and both bounds are
multiples of 2^-FB. -/
theorem qRoundTrip : Obligations.QRoundTrip := by
  unfold Obligations.QRoundTrip
  intro s f x hw hx
  obtain ⟨n, hn, hlt, hv⟩ := exists_pattern hw (qLo_le_clamp (x := x)) clamp_le_qHi
  obtain ⟨raw, rfl⟩ : ∃ raw : BitVec 32, raw.toNat = n :=
    ⟨⟨n, hlt.trans_le (two_pow_qWidth_le f)⟩, rfl⟩
  have hexec := exec_qEnc_of_finite hw hx
  rw [hn] at hexec
  have hdec := exec_qDec (s := s.withU32 raw) hw hlt
  simp only [← pow2_eq]
  refine ⟨raw, _, _, hexec, hdec, fun hlo hhi => ?_, fun h => ?_, fun h => ?_⟩
  · rw [State.withU32_port, hv, clamp_of_mem hlo hhi]
    exact ⟨rfl, truncAt_spec _ x⟩
  · rw [State.withU32_port, hv, clamp_of_lt h, truncAt_qLo]
  · rw [State.withU32_port, hv, clamp_of_gt h, truncAt_qHi]

/-- Settles O36: Q_DEC returns v / 2^FB with |v| ≤ 2^32 and FB in a byte. -/
theorem qDecValuesAreBinary64 : Obligations.QDecValuesAreBinary64 := by
  unfold Obligations.QDecValuesAreBinary64
  intro f raw hw hraw
  have hfb : f.fb.toNat ≤ 1022 := by have := f.fb.isLt; omega
  exact exists_real64_eq ((natAbs_fromPattern_le hraw).trans_lt (by norm_num)) hfb

/-- Settles O37: with t = W the integers of W bits are the raw range. -/
theorem twosComplementBijection : Obligations.TwosComplementBijection := by
  unfold Obligations.TwosComplementBijection
  intro f hw hs ht
  have hib := ib_add_fb_of_signed hs ht
  refine ⟨fun r hlo hhi => toPattern_spec f hw ?_ ?_, fun n hn => ?_⟩
  · simpa only [hs, if_true, hib] using hlo
  · rw [hib]; omega
  · obtain ⟨hlo, hhi⟩ := fromPattern_mem_of_signed hs hn
    exact ⟨hlo, hhi, toPattern_fromPattern hn⟩

/-- Settles O39, by the two answers of LE_PUT. -/
theorem lePutWritesLittleEndian : Obligations.LePutWritesLittleEndian := by
  unfold Obligations.LePutWritesLittleEndian
  exact fun s n => ⟨exec_lePut_of_wide,
    fun h => ⟨_, exec_lePut h, leBytes_length _ _, leBytes_getElem? _ _⟩⟩

/-- Settles O40, by the two answers of LE_GET. -/
theorem leGetReadsLittleEndian : Obligations.LeGetReadsLittleEndian := by
  unfold Obligations.LeGetReadsLittleEndian
  refine fun s n ofs => ⟨exec_leGet_of_past_end, fun h => ?_⟩
  obtain ⟨v, hread, hlt, hbytes⟩ := exists_readField_eq h
  exact ⟨v, exec_leGet hread, hlt, hbytes⟩

/-- Settles O41, since the field written behind `pre` is the one read at its offset. -/
theorem leGetReadsBackLePut : Obligations.LeGetReadsBackLePut := by
  unfold Obligations.LeGetReadsBackLePut
  intro s n ofs pre post hv hpre
  refine ⟨_, exec_lePut hv, exec_leGet ?_⟩
  rw [State.withA_port, ← hpre]
  exact readField_leBytes pre post hv

/-- Settles O38, row by row of the table. -/
theorem namedFormats : Obligations.NamedFormats := by
  unfold Obligations.NamedFormats
  simp only [List.forall_mem_cons]
  refine ⟨?_, ?_, ?_, ?_, ?_, ?_, ?_, ?_, ?_, by simp⟩
  all_goals exact ⟨rfl, rfl, rfl, rfl, by decide +kernel, by decide +kernel⟩

end Sys2Proof.Proofs

/-! PROOFS. 44_telemetry.md: the record of a block and what it depends on, the errors of TM_DEC, and
the value of a raw setpoint (O42 to O45). -/

namespace Sys2Proof.Machine

section Telemetry

variable {s : State} {sel : Byte} {b : BlockDesc}

/-! ### The record of a block -/

/-- The entry of a field in the record of TM_DEC, read from the string a (44_telemetry.md R143). -/
def fieldEntry (a : Bytes) (f : FieldDesc) : FieldVal :=
  let raw := leVal ((a.drop f.ofs).take f.width.bytes)
  ⟨f.name, raw, fieldValue f.kind raw⟩

/-- The result of TM_DEC on a string that holds the block (44_telemetry.md R143). -/
def blockResult (b : BlockDesc) (a : Bytes) : Result :=
  { record := .block b.name (b.fields.map (fieldEntry a)) }

/-- What stands behind a field's last byte has no part in its entry. -/
theorem fieldEntry_append_left {a : Bytes} {f : FieldDesc} (t : Bytes)
    (h : f.ofs + f.width.bytes ≤ a.length) : fieldEntry (a ++ t) f = fieldEntry a f := by
  rw [fieldEntry, fieldEntry, ← slice_add, ← slice_add, slice_append_left a t h]

/-- What stands behind a block has no part in its result: its fields end inside it. -/
theorem blockResult_append_left {c : Config} (hc : configWf c = true) (hb : b ∈ tmBlocks c)
    {a : Bytes} (h : b.len ≤ a.length) (t : Bytes) :
    blockResult b (a ++ t) = blockResult b a := by
  have entries : b.fields.map (fieldEntry (a ++ t)) = b.fields.map (fieldEntry a) :=
    List.map_congr_left fun f hf => fieldEntry_append_left t ((field_fits hc hb hf).trans h)
  rw [blockResult, blockResult, entries]

/-- The result is that of the block's own bytes (44_telemetry.md R148). -/
theorem blockResult_take {c : Config} (hc : configWf c = true) (hb : b ∈ tmBlocks c)
    {a : Bytes} (h : b.len ≤ a.length) : blockResult b (a.take b.len) = blockResult b a := by
  have hlen : b.len ≤ (a.take b.len).length := by rw [List.length_take_of_le h]
  have hr := blockResult_append_left hc hb hlen (a.drop b.len)
  rwa [List.take_append_drop, eq_comm] at hr

/-! ### What TM_DEC answers -/

theorem exec_tmDec_of_mem (hc : configWf s.cfg = true) (hb : b ∈ tmBlocks s.cfg)
    (h : b.len ≤ s.port.a.length) :
    exec (.tmDec b.id) s = .next (s.ret (blockResult b s.port.a)) :=
  exec_tmDec (findBlock_id hc hb) h
    (readFields_of_fits fun _ hf => (field_fits hc hb hf).trans h)

theorem exec_tmDec_of_unknown (h : ∀ b ∈ tmBlocks s.cfg, b.id ≠ sel) :
    exec (.tmDec sel) s = .next (s.raise .eUnknownBlock 0) := by
  simp only [exec, execTmDec, findBlock_eq_none_iff.mpr h]

theorem exec_tmDec_of_short (hb : findBlock s.cfg sel = some b) (h : s.port.a.length < b.len) :
    exec (.tmDec sel) s = .next (s.raise .eLength 0) := by
  simp only [exec, execTmDec, hb, if_pos h]

/-- A TM_DEC word with a must-be-zero bit set is illegal: clause (b) of 30_encoding.md R57. -/
theorem illegalWord_of_tmDec_reserved {w : OpWord} {z : Nat} (hpos : 0 < z) (hz : z < 2 ^ 16)
    (hw : w.toNat = 0x40000000 + 256 * z + sel.toNat) : illegalWord w := by
  have hop : opField w = 0x40#8 := field_eq_iff.mpr (by rw [hw, BitVec.toNat_ofNat]; omega)
  have hne : w.extractLsb' 8 16 ≠ 0#16 :=
    field_eq_iff.not.mpr (by rw [hw, BitVec.toNat_ofNat]; omega)
  have hreserved : ReservedSet w := .inr (.inr (.inr (.inr ⟨hop ▸ by decide, hne⟩)))
  exact illegalWord_iff.mpr (.inr (.inl hreserved))

/-! ### What SP_PROJ answers -/

/-- A 32-bit pattern of a signed format stands for its two's-complement reading. -/
theorem fromPattern_eq_toInt {f : QFormat} (hs : f.signed = true) (hw : qWidth f = 32)
    (x : BitVec 32) : fromPattern f x.toNat = x.toInt := by
  have hx : x.toNat < 2 ^ qWidth f := by rw [hw]; exact x.isLt
  rw [fromPattern_eq f hx, hw, BitVec.toInt_eq_toNat_cond]
  simp only [hs, true_and]
  split <;> split <;> omega

/-- SP_PROJ in a signed format answers X.u32, read as a signed number, over 2^FB
(44_telemetry.md R145). -/
theorem exec_spProj_of_signed {f : QFormat} (h : setpointFormat s.cfg sel = some f)
    (hs : f.signed = true) :
    exec (.spProj sel) s =
      .next (s.ret { y := .rat ((s.port.x.u32.toInt : Rat) / 2 ^ f.fb.toNat) }) := by
  obtain ⟨-, hw⟩ := setpointFormat_width h
  rw [exec_spProj h, qValue, fromPattern_eq_toInt hs hw, pow2_eq]

theorem exec_spProj_of_no_format (h : setpointFormat s.cfg sel = none) :
    exec (.spProj sel) s = .next (s.raise .eMode 0) := by
  simp only [exec, execSpProj, h]

end Telemetry

end Sys2Proof.Machine

namespace Sys2Proof.Proofs

open Sys2Proof.Machine

/-- Settles O42: the fields of a well-formed block lie inside any string that holds the block. -/
theorem tmDecReadsLayout : Obligations.TmDecReadsLayout := by
  unfold Obligations.TmDecReadsLayout
  exact fun _ _ hc hb h => exec_tmDec_of_mem hc hb h

/-- Settles O43: an illegal word is not executed, and P_TM_ID is injective. -/
theorem tmDecErrorOrder : Obligations.TmDecErrorOrder := by
  unfold Obligations.TmDecErrorOrder
  refine fun s sel hc => ⟨fun z hpos hz => ?illegal, fun h => ?unknown, fun b hb hid h => ?short⟩
  case illegal =>
    refine runWord_of_illegalWord (illegalWord_of_tmDec_reserved (sel := sel) hpos hz ?_) s
    rw [BitVec.toNat_ofNat]
    omega
  case unknown => exact exec_tmDec_of_unknown h
  case short => exact exec_tmDec_of_short (hid ▸ findBlock_id hc hb) h

/-- Settles O44: all three strings have the record of the block's own bytes. -/
theorem tmDecPrefixLaw : Obligations.TmDecPrefixLaw := by
  unfold Obligations.TmDecPrefixLaw
  intro s b x t hc hb h
  have decodes : ∀ a : Bytes, b.len ≤ a.length →
      exec (.tmDec b.id) (s.withA a) = .next ((s.withA a).ret (blockResult b a)) :=
    fun a ha => exec_tmDec_of_mem (s := s.withA a) hc hb ha
  refine ⟨blockResult b x, rfl, decodes x h, ?extended, ?cut⟩
  case extended =>
    rw [← blockResult_append_left hc hb h t]
    exact decodes (x ++ t) (by rw [List.length_append]; omega)
  case cut =>
    rw [← blockResult_take hc hb h]
    exact decodes (x.take b.len) (by rw [List.length_take_of_le h])

/-- Settles O45: the format of each mode is signed, and PWM has no fraction bit. -/
theorem spProjByMode : Obligations.SpProjByMode := by
  unfold Obligations.SpProjByMode
  intro s sel hc v c
  obtain ⟨hspeed, htorque, hpwm, hnone⟩ := setpointFormat_spec hc sel
  refine ⟨fun h => ?speed, fun h => ?torque, fun h => ?pwm, fun h => ?other⟩
  case speed => exact exec_spProj_of_signed (hspeed h) rfl
  case torque => exact exec_spProj_of_signed (htorque h) rfl
  case pwm =>
    have hexec := exec_spProj_of_signed (hpwm h) rfl
    rwa [show i32.fb.toNat = 0 from rfl, pow_zero, div_one] at hexec
  case other => exact exec_spProj_of_no_format (hnone h)

end Sys2Proof.Proofs

/-! PROOFS. 60_exceptions.md: what an error leaves and holds, which configurations a step refuses, and
where it faults (O51, O55, O56). -/

namespace Sys2Proof.Machine

section Errors

variable {s t : State} {i : Instr} {w : OpWord} {r : Result}

/-! ### Precise errors (R152) -/

/-- A sound record with an error status holds nothing beyond R151's fields, the payload of E_NACK
aside. -/
theorem Result.sound.fields_of_error (h : r.sound) (hr : r.status ≠ 0x00#8) :
    r.y = .int 0 ∧ r.range = false ∧ r.frames = [] ∧ r.record = .empty ∧
      (r.status = 0x02#8 ∨ r.r = []) := by
  obtain ⟨-, -, -, -, hrange, herror⟩ := h
  obtain ⟨hy, hframes, hrecord, hpayload⟩ := herror hr
  exact ⟨hy, Bool.eq_false_iff.mpr fun hg => hr (hrange hg), hframes, hrecord, hpayload⟩

/-- An instruction that returns an error writes no state, and it is not FRM_FEED or FRM_RST: these
return a success or, at an overflow, nothing. -/
theorem exec_error (h : exec i s = .next t) (ht : t.results = s.results ++ [r])
    (hr : r.status ≠ 0x00#8) : i ≠ .frmFeed ∧ i ≠ .frmRst ∧ t = s.ret r ∧ r.sound := by
  rcases exec_cases i s with ⟨hfeed, hrst, r', e⟩ | ⟨rfl, e⟩ | ⟨rfl, -, e⟩ | ⟨rfl, -, e⟩
  all_goals obtain rfl : _ = t := Host.Outcome.next.inj (e.symm.trans h)
  case inl =>
    obtain rfl : r' = r := by simpa using ht
    exact ⟨hfeed, hrst, rfl, (shape_of_exec_eq_ret hfeed hrst e).sound⟩
  case inr.inl =>
    obtain rfl : ({} : Result) = r := by simpa using ht
    exact absurd rfl hr
  case inr.inr.inl =>
    obtain rfl : { frames := (feed s.cfg s.decoder s.port.a).frames } = r := by simpa using ht
    exact absurd rfl hr
  case inr.inr.inr => simp at ht

/-- A legal word with the OP of FRM_FEED or FRM_RST is that instruction's (30_encoding.md R55). -/
theorem framer_of_opField (h : decode w = .ok i) (hop : opField w = 0x02#8 ∨ opField w = 0x03#8) :
    i = .frmFeed ∨ i = .frmRst := by
  rcases hop with hop | hop
  · have hN : decodeN w .frmFeed = .ok i := by simpa [decode, hop] using h
    exact .inl (decodeN_eq_ok_iff.mp hN).1
  · have hN : decodeN w .frmRst = .ok i := by simpa [decode, hop] using h
    exact .inr (decodeN_eq_ok_iff.mp hN).1

/-- A word that returns an error writes no state, and with the OP of FRM_FEED or FRM_RST it is an
illegal word. -/
theorem runWord_error (h : runWord w s = .next t) (ht : t.results = s.results ++ [r])
    (hr : r.status ≠ 0x00#8) :
    t = s.ret r ∧ r.sound ∧
      (opField w = 0x02#8 ∨ opField w = 0x03#8 → r.status = Status.eIllegalOp.code) := by
  cases hd : decode w with
  | error e =>
    obtain rfl : s.raise .eIllegalOp 0 = t := by simpa [runWord, hd] using h
    obtain rfl : errorResult .eIllegalOp 0 = r := by simpa using ht
    exact ⟨rfl, (Result.Shape.error .eIllegalOp nofun).sound, fun _ => rfl⟩
  | ok i =>
    have hexec : exec i s = .next t := by simpa only [runWord, hd] using h
    obtain ⟨hfeed, hrst, heq, hsound⟩ := exec_error hexec ht hr
    exact ⟨heq, hsound, fun hop => absurd (framer_of_opField hd hop) (not_or.mpr ⟨hfeed, hrst⟩)⟩

/-! ### The outcomes of a step that stop the machine (R159, R160) -/

theorem step_stops_or_answers_next (s : State) :
    (configWf s.cfg = false ∧ step s = .refused .illFormedConfig) ∨
    (configWf s.cfg = true ∧ ∃ f, s.fault = some f ∧ step s = .fault f) ∨
    (configWf s.cfg = true ∧ s.fault = none ∧ ∃ t, step s = .next t) := by
  rcases step_cases s with h | h | ⟨wf, hf, -, e⟩ | ⟨wf, hf, q, rest, -, e⟩
  · exact .inl h
  · exact .inr (.inl h)
  · exact .inr (.inr ⟨wf, hf, s, e⟩)
  · obtain ⟨t, ht⟩ := runWord_answers_next q.opw (s.issue q rest)
    exact .inr (.inr ⟨wf, hf, t, e.trans ht⟩)

theorem step_refused_iff : (∃ r, step s = .refused r) ↔ configWf s.cfg = false := by
  rcases step_stops_or_answers_next s with ⟨wf, e⟩ | ⟨wf, f, -, e⟩ | ⟨wf, -, t, e⟩
  · simp [wf, e]
  · simp [wf, e]
  · simp [wf, e]

theorem step_fault_iff {f : Fault} :
    step s = .fault f ↔ configWf s.cfg = true ∧ s.fault = some f := by
  rcases step_stops_or_answers_next s with ⟨wf, e⟩ | ⟨wf, f', hf, e⟩ | ⟨wf, hf, t, e⟩
  · simp [wf, e]
  · simp [wf, hf, e]
  · simp [wf, hf, e]

end Errors

section Configurations

/-! ### Well-formed configurations (10_state.md R28; 44_telemetry.md R142) -/

theorem FieldWidth.eq_w4_iff {n : FieldWidth} : n = .w4 ↔ n.bytes = 4 := by
  cases n <;> decide

theorem fieldWf_iff {len : Nat} {f : FieldDesc} : fieldWf len f = true ↔
    f.ofs + f.width.bytes ≤ len ∧
      (∀ q, f.kind = .q q → sigWidth q ≤ 32 ∧ qWidth q = 8 * f.width.bytes) ∧
      (f.kind = .setpoint → f.width.bytes = 4) := by
  cases hk : f.kind <;> simp [fieldWf, hk, hasWidth_iff, FieldWidth.eq_w4_iff]

theorem blockWf_iff {b : BlockDesc} : blockWf b = true ↔
    b.fields.Pairwise (fun f f' => f.name ≠ f'.name) ∧
      ∀ f ∈ b.fields, fieldWf b.len f = true := by
  rw [blockWf, Bool.and_eq_true, decide_eq_true_eq, List.all_eq_true, List.Nodup,
    List.pairwise_map, and_comm]

theorem tmBlocks_lengths (c : Config) : (tmBlocks c).map (fun b => (b.name, b.len)) =
    [(.standard, 25), (.temp, 8), (.volt, 24), (.curr, 24), (.diagGeneral, 20)] ++
      c.tmExtra.map (fun e => (.extra e.name, e.len)) := by
  simp [tmBlocks]

end Configurations

end Sys2Proof.Machine

namespace Sys2Proof.Proofs

open Sys2Proof.Machine

/-- Settles O51: a word that returns an error returns a sound record and nothing more. -/
theorem errorsArePrecise : Obligations.ErrorsArePrecise := by
  unfold Obligations.ErrorsArePrecise
  intro w s t r h ht hr
  obtain ⟨heq, hsound, hop⟩ := runWord_error h ht hr
  obtain ⟨hy, hrange, hframes, hrecord, hpayload⟩ := hsound.fields_of_error hr
  exact ⟨heq, hy, hrange, hframes, hrecord, hpayload, hop⟩

/-- Settles O55, by what the check of a configuration, of a block and of a field each say. -/
theorem refusesExactlyIllFormedConfigurations :
    Obligations.RefusesExactlyIllFormedConfigurations := by
  unfold Obligations.RefusesExactlyIllFormedConfigurations
  intro s c
  refine ⟨step_refused_iff, ?wellFormed, tmBlocks_lengths c⟩
  simp only [configWf_iff, blockWf_iff, fieldWf_iff, sigWidth_eq, List.Nodup, List.pairwise_map]
  exact and_congr_right' (and_congr_right' and_comm)

/-- Settles O56: a step of a well-formed configuration faults exactly where FAULT is set. -/
theorem faultedStateHasNoStep : Obligations.FaultedStateHasNoStep := by
  unfold Obligations.FaultedStateHasNoStep
  exact fun s wf f => by rw [step_fault_iff, and_iff_right wf]

end Sys2Proof.Proofs

/-! PROOFS. 70_reset_and_hazards.md: what a step does with the host's next operation, and the two
ends of a run of operations (O6, O57). -/

namespace Sys2Proof.Machine

section Runs

variable {s : State} {i : Instr} {w : OpWord} {q : Request} {rest : List Request}

/-! ### A step with an operation issued (R164) -/

theorem runWord_of_decode (h : decode w = .ok i) (s : State) : runWord w s = exec i s := by
  simp [runWord, h]

theorem runWord_of_not_decode (h : ∀ i, decode w ≠ .ok i) (s : State) :
    runWord w s = .next (s.raise .eIllegalOp 0) :=
  runWord_of_illegalWord (not_not.mp (mt exists_decode_iff.mpr (not_exists.mpr h))) s

theorem step_of_pending (wf : configWf s.cfg = true) (hf : s.fault = none)
    (hp : s.pending = q :: rest) : step s = runWord q.opw (s.issue q rest) := by
  simp [step, wf, hf, hp]

/-! ### The two ends of one operation -/

/-- The ends of an operation run at s: it returns one result, or it overflows a finite P_BUF_CAP and
returns none (40_framer.md R103; 60_exceptions.md R159). Either may write BUF and EP. -/
inductive State.EndsIn (s : State) : State → Prop
  | returned (buf : Bytes) (ep : Bool) (r : Result) :
      EndsIn s { s with buf := buf, ep := ep, results := s.results ++ [r] }
  | overflowed (buf : Bytes) (ep : Bool) (cap : s.cfg.bufCap ≠ none) :
      EndsIn s { s with buf := buf, ep := ep, fault := some .overflow }

theorem State.EndsIn.ret (s : State) (r : Result) : s.EndsIn (s.ret r) := .returned s.buf s.ep r

theorem execFrmFeed_ends (hf : s.fault = none) : ∃ t, exec .frmFeed s = .next t ∧ s.EndsIn t := by
  rcases hd : feed s.cfg s.decoder s.port.a with ⟨buf, ep, fault, frames⟩
  cases fault with
  | none =>
    have hkeeps : feed s.cfg s.decoder s.port.a =
        { s.decoder with buf := buf, ep := ep, frames := frames } := by simp [hd, hf]
    exact ⟨_, exec_frmFeed_of_feed hf hkeeps, .returned _ _ _⟩
  | some f =>
    refine ⟨_, exec_frmFeed_of_overflow hd, .overflowed _ _ fun hcap => ?_⟩
    have hkept := feed_fault_of_no_cap (d := s.decoder) hcap s.port.a
    simp [hd, hf] at hkept

theorem exec_ends (i : Instr) (hf : s.fault = none) : ∃ t, exec i s = .next t ∧ s.EndsIn t := by
  rcases exec_cases i s with ⟨-, -, r, e⟩ | ⟨-, e⟩ | ⟨rfl, -⟩ | ⟨rfl, -⟩
  · exact ⟨_, e, .ret s r⟩
  · exact ⟨_, e, .returned [] false {}⟩
  all_goals exact execFrmFeed_ends hf

theorem runWord_ends (w : OpWord) (hf : s.fault = none) :
    ∃ t, runWord w s = .next t ∧ s.EndsIn t := by
  cases hd : decode w with
  | ok i => exact runWord_of_decode hd s ▸ exec_ends i hf
  | error e =>
    exact ⟨_, runWord_of_not_decode (by simp [hd]) s, .ret s (errorResult .eIllegalOp 0)⟩

theorem step_ends (wf : configWf s.cfg = true) (hf : s.fault = none)
    (hp : s.pending = q :: rest) : ∃ t, step s = .next t ∧ (s.issue q rest).EndsIn t :=
  step_of_pending wf hf hp ▸ runWord_ends q.opw hf

end Runs

end Sys2Proof.Machine

namespace Sys2Proof.Proofs

open Sys2Proof.Machine

/-- Settles O57, by induction on the operations issued: the first returns one result and the rest
run on from there, or it overflows and the run has ended. -/
theorem programEndsFinalOrFaulted : Obligations.ProgramEndsFinalOrFaulted := by
  unfold Obligations.ProgramEndsFinalOrFaulted
  intro s wf hf
  induction hp : s.pending generalizing s with
  | nil => exact .inl ⟨s, [], rfl, ⟨hp, hf⟩, rfl, by simp, rfl⟩
  | cons q rest ih =>
    obtain ⟨u, hstep, hend⟩ := step_ends wf hf hp
    cases hend with
    | overflowed buf ep cap =>
      exact .inr ⟨cap, 0, _, [], by simp, runSteps_of_step hstep, rfl,
        step_fault_iff.mpr ⟨wf, rfl⟩, by simp, rfl⟩
    | returned buf ep r =>
      rcases ih { s.issue q rest with buf := buf, ep := ep, results := s.results ++ [r] }
        wf hf rfl with
        ⟨t, rs, hrun, hfinal, hcfg, hres, hlen⟩ |
        ⟨cap, k, t, rs, hk, hrun, hfault, hstop, hres, hlen⟩
      · exact .inl ⟨t, r :: rs, (runSteps_of_step hstep).trans hrun, hfinal, hcfg, by simp [hres],
          congrArg (· + 1) hlen⟩
      · exact .inr ⟨cap, k + 1, t, r :: rs, Nat.succ_lt_succ hk,
          (runSteps_of_step hstep).trans hrun, hfault, hstop, by simp [hres],
          congrArg (· + 1) hlen⟩

/-- Settles O6: the step is `runWord` with the operands at the ports. -/
theorem stepRunsDecodedInstruction : Obligations.StepRunsDecodedInstruction := by
  unfold Obligations.StepRunsDecodedInstruction
  intro s q rest wf hf hp
  rw [step_of_pending wf hf hp]
  exact ⟨fun i hi => runWord_of_decode hi _, fun hillegal => runWord_of_not_decode hillegal _⟩

end Sys2Proof.Proofs
